-- ==== Sys2Proof/Word.lean ====
section
/-! DEFINITION. The unsigned word types of the block (rules R9 and R10). -/

namespace Sys2Proof

/-- `u8` of rule R10: a frame byte, a length, a page count, a status byte. -/
abbrev Byte := BitVec 8

/-- `u16` of rule R10: one programmed halfword (rule R39). -/
abbrev Half := BitVec 16

/-- `u32` of rule R10: a target address, a checksum, an error count (rule R9). -/
abbrev Word := BitVec 32

end Sys2Proof
end

