-- ==== Sys2Proof/Machine/Bytes.lean ====
section
/-! DEFINITION. Byte order: every multi-byte field is little-endian (rules R32 to R36). -/

namespace Sys2Proof

/-- `le32` of rule R11 on four bytes, the lowest index first: rule R32's and R33's byte order. -/
def word32 (b0 b1 b2 b3 : Byte) : Word :=
  b0.zeroExtend 32 ||| (b1.zeroExtend 32) <<< 8 ||| (b2.zeroExtend 32) <<< 16 ||| (b3.zeroExtend 32) <<< 24

/-- `le16` of rule R11 on two bytes: the lower-indexed byte is bits 7:0 (rule R34). -/
def half16 (b0 b1 : Byte) : Half :=
  b0.zeroExtend 16 ||| (b1.zeroExtend 16) <<< 8

/-- `le32bytes` of rule R61: `[a[7:0], a[15:8], a[23:16], a[31:24]]`. -/
def wordBytes (a : Word) : List Byte :=
  [a.extractLsb' 0 8, a.extractLsb' 8 8, a.extractLsb' 16 8, a.extractLsb' 24 8]

/-- The six bytes of `zext_48(id)`, little-endian (rule R95). -/
def idBytes (id : BitVec 12) : List Byte :=
  let v : BitVec 48 := id.zeroExtend 48
  [v.extractLsb' 0 8, v.extractLsb' 8 8, v.extractLsb' 16 8, v.extractLsb' 24 8, v.extractLsb' 32 8,
    v.extractLsb' 40 8]

end Sys2Proof
end

