-- ==== Sys2Proof/Config.lean ====
section
/-! DEFINITION. The configuration record CFG (rule R7), the behaviour parameters (rule R8), the test
configuration TC, and the free values: opaque constants with no body, about which nothing can be proved. -/

namespace Sys2Proof

/-- HELP_SEND_COUNT of rule R8: `6 or 4`. -/
inductive HelpSendCount where
  | six
  | four
  deriving DecidableEq, Repr

/-- ERASE_START of rule R8 (used by rule R110). -/
inductive EraseStart where
  | fixedBase
  | fromAddress
  deriving DecidableEq, Repr

/-- SRAM_UPPER of rule R8 (used by rule R102). -/
inductive SramUpper where
  | flashEnd
  | sramEnd
  deriving DecidableEq, Repr

/-- CRC_STEP of rule R7, as plain data: the test configuration's function, or one of countably many functions
of which nothing is known (`Config.freeCrcStep`). A statement about every `CrcUnit` is a statement about the test
configuration's function and about an arbitrary total function `u32 × u32 → u32`. -/
inductive CrcUnit where
  /-- CRC_STEP_TC of rule R11. -/
  | tc
  /-- Any other total function. -/
  | other (k : Nat)
  deriving DecidableEq, Repr

/-- CFG (rule R7) with the behaviour parameters (rule R8). It is an argument of the step relation, constant for a
session (rule R24); the fixed type of `step` leaves it one place, a field of State that no step changes
(assumption 1). The constraints are `Config.Ok`. -/
structure Config where
  cmdGetVersion  : Byte
  cmdGetHelp     : Byte
  cmdGetChipId   : Byte
  cmdGoToAddress : Byte
  cmdFlashErase  : Byte
  cmdMemoryWrite : Byte
  ackMarker      : Byte
  nackMarker     : Byte
  vendorId       : Byte
  verMajor       : Byte
  verMinor       : Byte
  verPatch       : Byte
  helpList       : Vector Byte 6
  maxPages       : Byte
  massEraseSentinel : Word
  appBaseAddr    : Word
  flashBase      : Word
  flashEnd       : Word
  sramBase       : Word
  sramEnd        : Word
  stPageInvalid  : Byte
  stEraseOk      : Byte
  stEraseFail    : Byte
  stAddrInvalid  : Byte
  stWriteOk      : Byte
  stWriteFail    : Byte
  devId          : BitVec 12
  crcInit        : Word
  crcUnit        : CrcUnit
  helpSendCount  : HelpSendCount
  cidSendLen     : Nat
  eraseStart     : EraseStart
  sramUpper      : SramUpper
  nackOnRxError  : Bool
  programStopOnFail : Bool
  deriving DecidableEq, Repr

namespace Config

/-- Column TC of rule R7 with the defaults of rule R8. These values are not claims about any device (D20). -/
def tc : Config where
  cmdGetVersion  := 0x10
  cmdGetHelp     := 0x11
  cmdGetChipId   := 0x12
  cmdGoToAddress := 0x14
  cmdFlashErase  := 0x15
  cmdMemoryWrite := 0x16
  ackMarker      := 0xCD
  nackMarker     := 0xAB
  vendorId       := 0x64
  verMajor       := 0x01
  verMinor       := 0x00
  verPatch       := 0x00
  helpList       := #v[0x10, 0x11, 0x12, 0x14, 0x15, 0x16]
  maxPages       := 64
  massEraseSentinel := 0xFFFFFFFF
  appBaseAddr    := 0x08008000
  flashBase      := 0x08000000
  flashEnd       := 0x0801FFFF
  sramBase       := 0x20000000
  sramEnd        := 0x20004FFF
  stPageInvalid  := 0x00
  stEraseOk      := 0x03
  stEraseFail    := 0x02
  stAddrInvalid  := 0x00
  stWriteOk      := 0x01
  stWriteFail    := 0x00
  devId          := 0x410
  crcInit        := 0xFFFFFFFF
  crcUnit        := .tc
  helpSendCount  := .six
  cidSendLen     := 6
  eraseStart     := .fixedBase
  sramUpper      := .flashEnd
  nackOnRxError  := false
  programStopOnFail := false

/-- The six CMD_* values in the order of rule R94. -/
def codes (c : Config) : List Byte :=
  [c.cmdGetVersion, c.cmdGetHelp, c.cmdGetChipId, c.cmdGoToAddress, c.cmdFlashErase, c.cmdMemoryWrite]

/-- The free value behind `draw_N()` (rules R11, R12 and R105): the n-th draw once the answers listed in State are
used up. It has no body: nothing can be proved of its values (assumption 4). -/
opaque freeWord : Nat → Word

/-- CRC_STEP when it is not the test configuration's function (rule R7): the k-th function is any total function. -/
opaque freeCrcStep : Nat → Word → Word → Word

/-- The flash page a number of pages on from the one an address lies in, by a number of its own: `pageFrom a 0` is the
page of `a`. The spec gives no page size (N10), so it has no body (assumption 7). -/
opaque pageFrom : Word → Nat → Nat

/-- How many pages the bank that a mass erase names has beyond the first (N10, assumption 7). -/
opaque bankPages : Word → Nat

end Config
end Sys2Proof
end

