-- ==== Sys2Proof/Machine/Crc.lean ====
section
/-! DEFINITION. The checksum unit: CRC_STEP (rules R7 and R11) and the per-byte fold of rule R76. -/

namespace Sys2Proof

/-- One of the 32 rounds of CRC_STEP_TC (rule R11). -/
def crcRound (acc : Word) : Word :=
  if acc.getLsbD 31 then (acc <<< 1) ^^^ 0x04C11DB7#32 else acc <<< 1

/-- `n` rounds. -/
def crcRounds : Nat → Word → Word
  | 0, acc => acc
  | n + 1, acc => crcRounds n (crcRound acc)

/-- CRC_STEP_TC of rule R11: the test configuration's function only. -/
def crcStepTc (acc w : Word) : Word := crcRounds 32 (acc ^^^ w)

/-- CRC_STEP (rule R7): a parameter. -/
def crcStep (u : CrcUnit) (acc w : Word) : Word :=
  match u with
  | .tc => crcStepTc acc w
  | .other k => Config.freeCrcStep k acc w

/-- The fold of rule R76: "each byte widened to a 32-bit word before folding". -/
def crcFold (u : CrcUnit) (acc : Word) (bs : List Byte) : Word :=
  bs.foldl (fun a b => crcStep u a (b.zeroExtend 32)) acc

end Sys2Proof
end

