-- ==== Sys2Proof/Syntax.lean ====
section
/-! DEFINITION. The six commands (rule R3), one constructor per row of spec/opcode_table.json. -/

namespace Sys2Proof

/-- What a received frame carries besides its command code (rule R47): the length byte, the payload (frame bytes
2 to RXLEN-4) and the checksum word (frame bytes RXLEN-3 to RXLEN, little-endian). Operand fields are read from it
at fixed offsets whatever its length (rule R54), so a frame longer or shorter than its command's nominal format is
an instruction too. -/
structure Frame where
  len     : Byte
  payload : List Byte
  crc     : Word
  deriving DecidableEq, Repr

/-- The command protocol (rule R3). A dispatchable frame with any other code is "Unknown" (rule R57): it has no row
in the opcode table, and `execUnknown` gives it its meaning. -/
inductive Instr where
  /-- Format F0 (rule R50), meaning rule R91. -/
  | getVersion (f : Frame)
  /-- Format F0 (rule R50), meaning rule R93. -/
  | getHelp (f : Frame)
  /-- Format F0 (rule R50), meaning rule R95. -/
  | getChipId (f : Frame)
  /-- Format FG (rule R53), meaning rule R97. -/
  | goToAddress (f : Frame)
  /-- Format FE (rule R51), meaning rule R108. -/
  | flashErase (f : Frame)
  /-- Format FW (rule R52), meaning rule R112. -/
  | memoryWrite (f : Frame)
  deriving DecidableEq, Repr

/-- The frame an instruction was received in. -/
def Instr.frame : Instr → Frame
  | .getVersion f => f
  | .getHelp f => f
  | .getChipId f => f
  | .goToAddress f => f
  | .flashErase f => f
  | .memoryWrite f => f

end Sys2Proof
end

