-- ==== Sys2Proof/WellFormed.lean ====
section
/-! DEFINITION. When a frame, and so an instruction, is well formed. -/

namespace Sys2Proof

/-- "Invariant: declared length must match bytes actually received" (rule R69): the length byte counts the command
byte, the payload and the four checksum bytes (rules R46 and R47). Since the length is one byte, the payload has at
most 250 bytes (rule R62). -/
def Frame.lengthMatches (f : Frame) : Bool := f.len.toNat == f.payload.length + 5

/-- An instruction is well formed if its frame's declared length is its length. Every other content is a legal
frame: "The block never compares a length field with RXLEN" (rule R54). -/
def Instr.wf (i : Instr) : Bool := i.frame.lengthMatches

end Sys2Proof
end

