-- ==== Sys2Proof/Decode.lean ====
section
/-! DEFINITION. Decoding the bytes of a frame (rules R46 to R57), then encoding, the host's frame construction
(rule R62) and the opcode table's words. -/

namespace Sys2Proof

/-- Why a byte list holds no dispatchable frame. -/
inductive Reject where
  /-- There is no length byte. -/
  | noLengthByte
  /-- Fewer bytes follow the length byte than it declares (rule R46). -/
  | incomplete
  /-- RXLEN < 5: MalformedFrame (rules R49 and R121). -/
  | tooShort
  deriving DecidableEq, Repr

/-- What a byte list begins with: a command frame, a dispatchable frame with an Unknown code (rule R57), or no
dispatchable frame; with the bytes after the frame. -/
inductive Decoded where
  | instr (i : Instr) (rest : List Byte)
  | unknown (code : Byte) (f : Frame) (rest : List Byte)
  | rejected (why : Reject)
  deriving DecidableEq, Repr

/-- Rule R56: the command byte selects the command by a full 8-bit match, the arms in the order of rule R73. -/
def commandOf (c : Config) (code : Byte) (f : Frame) : Option Instr :=
  if code = c.cmdGetVersion then some (.getVersion f)
  else if code = c.cmdGetHelp then some (.getHelp f)
  else if code = c.cmdGetChipId then some (.getChipId f)
  else if code = c.cmdFlashErase then some (.flashErase f)
  else if code = c.cmdMemoryWrite then some (.memoryWrite f)
  else if code = c.cmdGoToAddress then some (.goToAddress f)
  else none

/-- Four bytes read as a little-endian word (rule R32). Any other number of bytes reads as if padded with zeros. -/
def wordOfBytes (bs : List Byte) : Word :=
  word32 (bs.getD 0 0) (bs.getD 1 0) (bs.getD 2 0) (bs.getD 3 0)

/-- A dispatchable frame's parts (rule R47): `code` is frame byte 1 and `tail` the frame bytes 2 to RXLEN, the last
four of them the checksum. -/
def frameOf (len : Byte) (tail : List Byte) : Frame :=
  { len := len, payload := tail.take (tail.length - 4), crc := wordOfBytes (tail.drop (tail.length - 4)) }

/-- Rule R46: byte 0 alone tells the frame's length; rule R49: RXLEN < 5 is not dispatchable; rules R47 and R56. -/
def decode (c : Config) (bs : List Byte) : Decoded :=
  match bs with
  | [] => .rejected .noLengthByte
  | len :: body =>
    if body.length < len.toNat then .rejected .incomplete
    else if len.toNat < 5 then .rejected .tooShort
    else
      match body with
      | [] => .rejected .tooShort
      | code :: tail =>
        let f := frameOf len (tail.take (len.toNat - 1))
        match commandOf c code f with
        | some i => .instr i (tail.drop (len.toNat - 1))
        | none => .unknown code f (tail.drop (len.toNat - 1))

/-- The command code of an instruction (rule R56). -/
def codeOf (c : Config) : Instr → Byte
  | .getVersion _ => c.cmdGetVersion
  | .getHelp _ => c.cmdGetHelp
  | .getChipId _ => c.cmdGetChipId
  | .goToAddress _ => c.cmdGoToAddress
  | .flashErase _ => c.cmdFlashErase
  | .memoryWrite _ => c.cmdMemoryWrite

/-- The covered region of a frame (rule R48): the length byte, the command byte and the payload. -/
def Frame.covered (code : Byte) (f : Frame) : List Byte := f.len :: code :: f.payload

/-- All bytes of a frame (rule R47). -/
def Frame.bytes (code : Byte) (f : Frame) : List Byte := f.covered code ++ wordBytes f.crc

/-- The bytes of an instruction's frame on the wire (rules R47 and R56). -/
def encode (c : Config) (i : Instr) : List Byte := i.frame.bytes (codeOf c i)

/-- `frame(c, p)` of rule R62: the frame a host builds for code and payload, with its checksum. -/
def hostFrame (c : Config) (code : Byte) (payload : List Byte) : Frame :=
  let len := BitVec.ofNat 8 (payload.length + 5)
  { len := len, payload := payload, crc := crcFold c.crcUnit c.crcInit (len :: code :: payload) }

/-- The payload length of a command's nominal frame (rules R50 to R53), MEMORY_WRITE with a length field of 0. -/
def nominalPayload (c : Config) (code : Byte) : Nat :=
  if code = c.cmdFlashErase then 5 else if code = c.cmdMemoryWrite then 5 else 0

/-- The n low bytes of a number, the least significant first. -/
def bytesOfNat : Nat → Nat → List Byte
  | 0, _ => []
  | n + 1, w => BitVec.ofNat 8 w :: bytesOfNat n (w / 256)

/-- The command byte of an opcode-table word: frame byte 1 is the table's first byte (spec/opcode_table.json,
"The match applies to frame byte 1"). -/
def tableCode (w : Nat) : Byte := BitVec.ofNat 8 w

/-- The frame an opcode-table word of `nbits` bits stands in: frame byte 1 is the word's first byte, the word's
further bytes are the payload's first, the payload is filled with zeros up to the nominal length, and the length
byte and the checksum are those of rule R62 (assumption 9). -/
def tableFrame (c : Config) (nbits w : Nat) : Frame :=
  let given := bytesOfNat (min (nbits / 8 - 1) 250) (w / 256)
  hostFrame c (tableCode w)
    (given ++ List.replicate (nominalPayload c (tableCode w) - given.length) 0)

/-- The bytes of that frame. -/
def tableBytes (c : Config) (nbits w : Nat) : List Byte := (tableFrame c nbits w).bytes (tableCode w)

/-- The instruction the decoder reads from an opcode-table word, under the configuration whose codes the table
lists (column TC of rule R7). -/
def decodeTableWord (nbits w : Nat) : Option Instr :=
  match decode Config.tc (tableBytes Config.tc nbits w) with
  | .instr i _ => some i
  | .unknown _ _ _ => none
  | .rejected _ => none

end Sys2Proof
end

