-- ==== Sys2Proof/Machine/State.lean ====
section
/-! DEFINITION. The state of the block (rules R15 to R27), its reset value (rules R28 and R141), and the reasons a
step can stop. -/

namespace Sys2Proof.Machine

/-- PHASE of rule R16, the sequencer control state. -/
inductive Phase where
  | waitLen
  | waitBody
  | exec
  deriving DecidableEq, Repr

/-- VerificationResult (rules R20 and R21): "{Passed, Failed} — never partially valid". -/
inductive Verification where
  | passed
  | failed
  deriving DecidableEq, Repr

/-- PageStatus (bounds) of rule R20. -/
inductive PageStatus where
  | valid
  | invalid
  deriving DecidableEq, Repr

/-- PageStatus (outcome) of rule R20. -/
inductive EraseOutcome where
  | succeeded
  | failed
  deriving DecidableEq, Repr

/-- AddressVerdict of rule R20. -/
inductive Verdict where
  | valid
  | invalid
  deriving DecidableEq, Repr

/-- Aggregate program status of rule R20. -/
inductive WriteStatus where
  | passed
  | failed
  deriving DecidableEq, Repr

/-- An input event of the RX port (rule R11). -/
inductive RxEvent where
  | byte (b : Byte)
  | error
  deriving DecidableEq, Repr

/-- The two erase requests of the flash port (rule R101). -/
inductive EraseRequest where
  | byPage (base : Word) (count : Byte)
  | all (base : Word)
  deriving DecidableEq, Repr

/-- The observable events (rule R27). An erase request carries the errorCount it was answered with, a program
request its success. -/
inductive Event where
  | tx (bytes : List Byte)
  | flashUnlock
  | flashLock
  | erase (request : EraseRequest) (errorCount : Word)
  | program (addr : Word) (value : Half) (ok : Bool)
  | diag (code : Byte)
  deriving DecidableEq, Repr

/-- What the flash controller leaves in the array (rule R25). -/
inductive Controller where
  /-- The spec's own: the contents after any request are any value (I16). -/
  | anyContents
  /-- The controller of assumption 6: a program request answered true stores its halfword and changes nothing else. -/
  | stores
  deriving DecidableEq, Repr

/-- The error kinds of rule R121, the block's exceptions. -/
inductive ErrorKind where
  | transportFailure
  | malformedFrame
  | integrityFailure
  | unknownCommand
  | pageNumberInvalid
  | eraseHardwareFailure
  | addressInvalid
  | programHardwareFailure
  deriving DecidableEq, Repr

/-- Bytes of the target address space (rule R31, second space) whose contents the model knows, by address, the
addresses strictly rising. An address that is not listed has contents the model does not know (assumption 6). -/
abbrev Memory := List Host.Cell

/-- The state tuple of rule R15, the working registers of rule R20, the trace (rule R27) and the input of a session
(rule R30); then what the model holds of the collaborators. Every field is plain data. -/
structure State where
  /-- The configuration of the instance (rules R7, R8 and R24): no step changes it. -/
  cfg       : Config
  /-- PHASE (rule R16). -/
  phase     : Phase
  /-- RXBUF (rule R17): indices 0 to 255 (rule R9). -/
  rxbuf     : Vector Byte 256
  /-- RXLEN (rule R18). -/
  rxlen     : Byte
  /-- RXCNT (rule R18). -/
  rxcnt     : Byte
  /-- CRC_ACC (rule R19). -/
  crcAcc    : Word
  /-- FLASH_CS (rule R22). -/
  flashCs   : Bool
  /-- CMD (rule R20). -/
  cmd       : Byte
  /-- HOST_CRC (rule R20). -/
  hostCrc   : Word
  /-- VERIFY (rule R20). -/
  verify    : Verification
  /-- P_COUNT (rule R20). -/
  pCount    : Byte
  /-- P_ADDR (rule R20). -/
  pAddr     : Word
  /-- PAGE_STATUS (rule R20). -/
  pageStatus : PageStatus
  /-- ERASE_OUTCOME (rule R20). -/
  eraseOutcome : EraseOutcome
  /-- ERR (rule R20). -/
  err       : Word
  /-- W_ADDR (rule R20). -/
  wAddr     : Word
  /-- W_LEN (rule R20). -/
  wLen      : Byte
  /-- VERDICT (rule R20). -/
  verdict   : Verdict
  /-- W_STATUS (rule R20). -/
  wStatus   : WriteStatus
  /-- K (rule R20). -/
  k         : Byte
  /-- EVT (rule R27), the oldest event first. -/
  evt       : List Event
  /-- The RX input events still to come (rule R30), the next one first. -/
  rxIn      : List RxEvent
  /-- The model's own: answers already fixed for the next draws, the next one first (assumption 4). -/
  oracle    : List Word
  /-- The model's own: how many free values have been drawn (assumption 4). -/
  drawCount : Nat
  /-- The flash array and the rest of the target address space, as far as it is known (rule R25, assumption 6). -/
  flash     : Memory
  /-- The erase and program requests so far with their answers, the latest first: what of the array rule R106 needs
  (assumption 7). -/
  history   : List Event
  /-- The model's own: what is assumed of the flash controller's array. No step changes it (assumption 6). -/
  controller : Controller
  /-- The flash controller's own lock (rules R41, R142 and R143): whether it is unlocked. -/
  unlocked  : Bool
  /-- The resets the platform has still to give (rule R142), the next one first: for each, how many steps come between
  it and the reset before (assumption 8). -/
  resets    : List Nat
  deriving DecidableEq, Repr

/-- Why the block can get stuck. Neither reason is reachable: `Obligations.StepFromInvNeverStops` says so. Both are
safe: the model stops where the spec gives the block no behaviour. -/
inductive Fault where
  /-- Raised by the flash-port operations of Machine/Ops.lean when a request breaks rule R101: "may be issued only
  when FLASH_CS == false" (or true). Safe. -/
  | flashBracket
  /-- Raised by the step in PHASE = EXEC when RXBUF[0..RXLEN] is no dispatchable frame, which rules R68 to R71 rule
  out: RXBUF[0] is not RXLEN, or RXLEN < 5. Safe. -/
  | corruptFrame
  deriving DecidableEq, Repr

/-- Why an instruction has no meaning. -/
inductive Refusal where
  /-- Raised by an arm of `exec` whose instruction is not modelled yet; no arm is. Safe. -/
  | notModelled (mnemonic : String)
  deriving DecidableEq, Repr

/-- The outcomes of a step of this machine. -/
abbrev Result := Host.Outcome State Fault Refusal

/-- The state after reset (rules R28 and R141) of an instance with configuration `c`. Elements the spec leaves
unspecified hold zero, `failed` or `invalid` (assumption 3). -/
def State.resetWith (c : Config) : State where
  cfg := c
  phase := .waitLen
  rxbuf := Vector.replicate 256 0
  rxlen := 0
  rxcnt := 0
  crcAcc := c.crcInit
  flashCs := false
  cmd := 0
  hostCrc := 0
  verify := .failed
  pCount := 0
  pAddr := 0
  pageStatus := .invalid
  eraseOutcome := .failed
  err := 0
  wAddr := 0
  wLen := 0
  verdict := .invalid
  wStatus := .failed
  k := 0
  evt := []
  rxIn := []
  oracle := []
  drawCount := 0
  flash := []
  history := []
  controller := .anyContents
  unlocked := false
  resets := []

/-- The machine right after reset, in the test configuration (assumption 2). -/
def State.reset : State := State.resetWith Config.tc

/-- The next state of a step, and what follows it. A stop stays a stop. -/
def andThen (o : Result) (next : State → Result) : Result :=
  match o with
  | .next s => next s
  | .fault r => .fault r
  | .refused r => .refused r

end Sys2Proof.Machine
end

