-- ==== Sys2Proof/Machine/Flags.lean ====
section
/-! DEFINITION. Every flag computation of the block (rules R21, R102, R108 and R112) and every flag's status byte on
the wire (rule R58). -/

namespace Sys2Proof.Machine

/-- VERIFY (rule R76): whole-word equality of the accumulated and the host's checksum. -/
def verification (acc host : Word) : Verification :=
  if acc = host then .passed else .failed

/-- PAGE_STATUS (rule R108): an unsigned comparison with MAX_PAGES (rule R117). -/
def pageBounds (c : Config) (count : Byte) : PageStatus :=
  if c.maxPages < count then .invalid else .valid

/-- ERASE_OUTCOME (rules R108 and R111): "success iff the erase primitive reports zero page errors". -/
def outcomeOf (err : Word) : EraseOutcome :=
  if err = 0 then .succeeded else .failed

/-- The validator's upper SRAM bound (rules R8 and R102). -/
def sramLimit (c : Config) : Word :=
  match c.sramUpper with
  | .flashEnd => c.flashEnd
  | .sramEnd => c.sramEnd

/-- AddrValid of rule R102, with inclusive bounds. -/
def addrValid (c : Config) (a : Word) : Verdict :=
  if (c.flashBase ≤ a ∧ a ≤ c.flashEnd) ∨ (c.sramBase ≤ a ∧ a ≤ sramLimit c) then .valid else .invalid

/-- The status byte of an erase outcome (rule R58). -/
def eraseStatusByte (c : Config) : EraseOutcome → Byte
  | .succeeded => c.stEraseOk
  | .failed => c.stEraseFail

/-- The status byte of a write status (rule R58). -/
def writeStatusByte (c : Config) : WriteStatus → Byte
  | .passed => c.stWriteOk
  | .failed => c.stWriteFail

end Sys2Proof.Machine
end

