-- ==== Sys2Proof/Machine/Memory.lean ====
section
/-! DEFINITION. The target address space as a sparse list of known bytes (rules R25, R31 and R39). -/

namespace Sys2Proof.Machine

/-- What an address holds, if it is known. -/
def Memory.read : Memory → Nat → Option Byte
  | [], _ => none
  | (x, b) :: m, a => if x = a then some b else Memory.read m a

/-- Write one byte; the addresses stay strictly rising. -/
def Memory.write : Memory → Nat → Byte → Memory
  | [], a, b => [(a, b)]
  | (x, v) :: m, a, b =>
    if a < x then (a, b) :: (x, v) :: m
    else if a = x then (a, b) :: m
    else (x, v) :: Memory.write m a b

/-- Forget what one address holds. -/
def Memory.forget (m : Memory) (a : Nat) : Memory := m.filter (fun c => c.1 ≠ a)

/-- Canonical form: strictly rising addresses of the 32-bit space. No entry can equal what an unlisted address
reads as, which is no value. -/
abbrev Memory.wf (m : Memory) : Prop :=
  List.Pairwise (fun c d : Host.Cell => c.1 < d.1) m ∧ ∀ c ∈ m, c.1 < 2 ^ 32

/-- The two bytes of a halfword programmed at `a`, low byte first, the addresses modulo 2^32 (rules R34 and R115). -/
def Memory.writeHalf (m : Memory) (a : Word) (h : Half) : Memory :=
  Memory.write (Memory.write m a.toNat (h.extractLsb' 0 8)) (a + 1).toNat (h.extractLsb' 8 8)

/-- Forget the two bytes of a halfword whose programming failed. -/
def Memory.forgetHalf (m : Memory) (a : Word) : Memory :=
  Memory.forget (Memory.forget m a.toNat) (a + 1).toNat

end Sys2Proof.Machine
end

