-- ==== Sys2Proof/Machine/Ops.lean ====
section
/-! DEFINITION. The primitives of rule R11 as operations over State: events, transmissions (rule R79), draws, the
flash port (rules R101, R105 and R106), and the abort of a command with its return (rules R121, R127 and R128). -/

namespace Sys2Proof.Machine

/-- An event is appended to EVT in program order (rules R11 and R27). -/
def emit (e : Event) (s : State) : State := { s with evt := s.evt ++ [e] }

/-- SendAckHeader of rule R79: a transmission of its own. -/
def sendAckHeader (n : Byte) (s : State) : State := emit (.tx [s.cfg.ackMarker, n]) s

/-- SendPayload of rule R79: a transmission of its own. -/
def sendPayload (p : List Byte) (s : State) : State := emit (.tx p) s

/-- SendAck of rule R79: "header and payload are always two separate transmissions". -/
def sendAck (n : Byte) (p : List Byte) (s : State) : State := sendPayload p (sendAckHeader n s)

/-- SendNack of rule R79. -/
def sendNack (s : State) : State := emit (.tx [s.cfg.nackMarker]) s

/-- The next unconstrained value (rules R11 and R12): an answer fixed in advance if State lists one, else the next
free value (assumption 4). -/
def draw (s : State) : Word × State :=
  match s.oracle with
  | w :: ws => (w, { s with oracle := ws })
  | [] => (Config.freeWord s.drawCount, { s with drawCount := s.drawCount + 1 })

/-- `draw_8()` (rule R11): any 8-bit value. -/
def drawByte (s : State) : Byte × State := ((draw s).1.setWidth 8, (draw s).2)

/-- `draw_1()` (rule R11): any bit. -/
def drawBit (s : State) : Bool × State := ((draw s).1.getLsbD 0, (draw s).2)

/-- DevIdRead() of rules R26 and R96: constant for the session, with no side effect. -/
def devIdRead (s : State) : BitVec 12 := s.cfg.devId

/-- FlashUnlock() (rules R41 and R101): its precondition is on FLASH_CS, whatever the controller's lock is. -/
def flashUnlock (s : State) : Result :=
  if s.flashCs then .fault .flashBracket
  else .next (emit .flashUnlock { s with flashCs := true, unlocked := true })

/-- FlashLock() (rules R41 and R101). -/
def flashLock (s : State) : Result :=
  if s.flashCs then .next (emit .flashLock { s with flashCs := false, unlocked := false })
  else .fault .flashBracket

/-- The pages an erase request names (rules R101 and R110). -/
def EraseRequest.pages : EraseRequest → List Nat
  | .byPage a n => (List.range n.toNat).map (Config.pageFrom a)
  | .all a => (List.range (Config.bankPages a + 1)).map (Config.pageFrom a)

/-- Whether a page is known to be erased after the requests of a history (rule R106): an erase with no error leaves
each page it names erased, no erase makes a page less erased, and a program request ends it for the pages of its two
bytes (assumption 7). -/
def pageErased (p : Nat) : List Event → Bool
  | [] => false
  | .erase r e :: h => (decide (e = 0) && r.pages.contains p) || pageErased p h
  | .program a _ _ :: h => decide (p ≠ Config.pageFrom a 0 ∧ p ≠ Config.pageFrom (a + 1) 0) && pageErased p h
  | .tx _ :: h => pageErased p h
  | .flashUnlock :: h => pageErased p h
  | .flashLock :: h => pageErased p h
  | .diag _ :: h => pageErased p h

/-- Whether a request has been answered with no error and nothing has been programmed since: then its pages, even if
it names none (rule R111), are erased. -/
def answeredBefore (r : EraseRequest) : List Event → Bool
  | [] => false
  | .erase q e :: h => (decide (e = 0) && q == r) || answeredBefore r h
  | .program _ _ _ :: _ => false
  | .tx _ :: h => answeredBefore r h
  | .flashUnlock :: h => answeredBefore r h
  | .flashLock :: h => answeredBefore r h
  | .diag _ :: h => answeredBefore r h

/-- Whether every page the request names is known to be erased (rule R106). Of a request that names no page this is
said only when it has been answered before (rule R111, assumption 7). -/
def knownErased (h : List Event) (r : EraseRequest) : Bool :=
  answeredBefore r h ||
    match h with
    | [] => false
    | _ :: _ => !r.pages.isEmpty && r.pages.all fun p => pageErased p h

/-- The answer to an erase request: a fresh draw (rule R105), restricted by rule R106 to 0 when every page the
request names is already erased. -/
def eraseAnswer (r : EraseRequest) (s : State) : Word × State :=
  if knownErased s.history r then (0, s) else draw s

/-- FlashEraseByPage and FlashEraseAll with their answer (rules R101 and R105). The array's contents afterwards are
any value (I16): no byte of it is known. -/
def flashErase (r : EraseRequest) (answer : Word) (s : State) : Result :=
  if s.flashCs then
    .next (emit (.erase r answer) { s with flash := [], history := .erase r answer :: s.history })
  else .fault .flashBracket

/-- The answer to a program request: a fresh draw (rule R105). -/
def programAnswer (s : State) : Bool × State := drawBit s

/-- What is known of the array after a program request: nothing, since its contents are any value (I16), or, of the
controller of assumption 6, the halfword if it succeeded and everything but its two bytes if not. -/
def arrayAfterProgram (c : Controller) (a : Word) (h : Half) (ok : Bool) (m : Memory) : Memory :=
  match c with
  | .anyContents => []
  | .stores => if ok then m.writeHalf a h else m.forgetHalf a

/-- FlashProgram with its answer (rules R101 and R105). -/
def flashProgram (a : Word) (h : Half) (ok : Bool) (s : State) : Result :=
  if s.flashCs then
    .next (emit (.program a h ok)
      { s with
        flash := arrayAfterProgram s.controller a h ok s.flash
        history := .program a h ok :: s.history })
  else .fault .flashBracket

/-- The critical section of rules R22 and R118: one unlock, the requests, one lock. -/
def flashBracket (requests : State → Result) (s : State) : Result :=
  andThen (flashUnlock s) fun s1 => andThen (requests s1) flashLock

/-- The return (rules R72 and R128): "No return operation exists. The next cycle starts in WAIT_LEN". -/
def endCycle (s : State) : State := { s with phase := .waitLen }

/-- The observable result of an error kind (the table of rule R121). For the four kinds reported in an ACK, the ACK
header has been sent before; the status byte is what remains to be sent. -/
def report (e : ErrorKind) (s : State) : State :=
  match e with
  | .transportFailure => if s.cfg.nackOnRxError then sendNack s else s
  | .malformedFrame => s
  | .integrityFailure => sendNack s
  | .unknownCommand => s
  | .pageNumberInvalid => sendPayload [s.cfg.stPageInvalid] s
  | .eraseHardwareFailure => sendPayload [s.cfg.stEraseFail] s
  | .addressInvalid => sendPayload [s.cfg.stAddrInvalid] s
  | .programHardwareFailure => sendPayload [s.cfg.stWriteFail] s

/-- Taking an exception (rule R127): the block emits the kind's observable result and returns to WAIT_LEN. No state
is saved, and there is no vector and no handler address. -/
def abort (e : ErrorKind) (s : State) : State := endCycle (report e s)

end Sys2Proof.Machine
end

