-- ==== Sys2Proof/Machine/Operands.lean ====
section
/-! DEFINITION. Operand assembly: FB, le16 and le32 (rule R11) and every field of rule R55. A field is read at its
fixed offset whatever the frame's length (rule R54), and each byte read beyond RXLEN is a fresh draw. -/

namespace Sys2Proof.Machine

/-- FB(i) of rule R11 for the frame with bytes `bs`: frame byte i when i <= RXLEN, else a draw. -/
def frameByte (bs : List Byte) (i : Nat) (s : State) : Byte × State :=
  match bs[i]? with
  | some b => (b, s)
  | none => drawByte s

/-- le16(i) of rule R11. -/
def frameHalf (bs : List Byte) (i : Nat) (s : State) : Half × State :=
  let b0 := frameByte bs i s
  let b1 := frameByte bs (i + 1) b0.2
  (half16 b0.1 b1.1, b1.2)

/-- le32(i) of rule R11. -/
def frameWord (bs : List Byte) (i : Nat) (s : State) : Word × State :=
  let b0 := frameByte bs i s
  let b1 := frameByte bs (i + 1) b0.2
  let b2 := frameByte bs (i + 2) b1.2
  let b3 := frameByte bs (i + 3) b2.2
  (word32 b0.1 b1.1 b2.1 b3.1, b3.2)

/-- P_COUNT <- FB(2), then P_ADDR <- le32(3) (rules R55 and R108). -/
def readEraseFields (bs : List Byte) (s : State) : State :=
  let count := frameByte bs 2 s
  let addr := frameWord bs 3 count.2
  { addr.2 with pCount := count.1, pAddr := addr.1 }

/-- W_ADDR <- le32(2), then W_LEN <- FB(6) (rules R55 and R112). -/
def readWriteFields (bs : List Byte) (s : State) : State :=
  let addr := frameWord bs 2 s
  let len := frameByte bs 6 addr.2
  { len.2 with wAddr := addr.1, wLen := len.1 }

/-- Halfword k of a MEMORY_WRITE: le16(7+2k) (rules R34 and R55). -/
def dataHalf (bs : List Byte) (k : Nat) (s : State) : Half × State := frameHalf bs (7 + 2 * k) s

/-- The address of halfword k: (W_ADDR + 2k) mod 2^32 (rules R55 and R115). -/
def halfAddr (wAddr : Word) (k : Nat) : Word := wAddr + BitVec.ofNat 32 (2 * k)

/-- The number of halfwords of a MEMORY_WRITE: W_LEN >> 1 (rules R113 and R117). -/
def halfCount (wLen : Byte) : Nat := (wLen >>> 1).toNat

end Sys2Proof.Machine
end

