-- ==== Sys2Proof/Machine/Verify.lean ====
section
/-! DEFINITION. The Integrity Verifier (rules R76 to R78) and the start of a dispatched command (rules R73, R74). -/

namespace Sys2Proof.Machine

/-- The start of a known command's arm in Dispatch (rules R73 and R74): CMD <- FB(1), and one Diag event before the
handler's first event. -/
def beginCommand (code : Byte) (s : State) : State := emit (.diag code) { s with cmd := code }

/-- Verify() of rule R76: fold the covered region into CRC_ACC, compare with the host's checksum, and reset the
accumulator on either result. -/
def verifyFrame (code : Byte) (f : Frame) (s : State) : State :=
  let acc := crcFold s.cfg.crcUnit s.crcAcc (f.covered code)
  { s with hostCrc := f.crc, verify := verification acc f.crc, crcAcc := s.cfg.crcInit }

/-- Gating (rule R78): Verify() is the first action of a verified command, and "on Failed, the handler emits a NACK
and performs no other side effect". -/
def verified (code : Byte) (f : Frame) (s : State) (handler : State → Result) : Result :=
  let s1 := verifyFrame code f (beginCommand code s)
  match s1.verify with
  | .failed => .next (abort .integrityFailure s1)
  | .passed => handler s1

end Sys2Proof.Machine
end

