-- ==== Sys2Proof/Machine/Flash.lean ====
section
/-! DEFINITION. The flash commands: FLASH_ERASE (rules R107 to R111) and MEMORY_WRITE (rules R112 to R116). -/

namespace Sys2Proof.Machine

/-- Which erase request a FLASH_ERASE with these fields issues (rules R108 and R110). -/
def eraseRequestOf (c : Config) (count : Byte) (addr : Word) : EraseRequest :=
  if addr = c.massEraseSentinel then .all c.appBaseAddr
  else
    match c.eraseStart with
    | .fixedBase => .byPage c.appBaseAddr count
    | .fromAddress => .byPage addr count

/-- ERR <- the answer of the erase request (rule R108), inside the bracket. -/
def eraseRequests (s : State) : Result :=
  let r := eraseRequestOf s.cfg s.pCount s.pAddr
  let a := eraseAnswer r s
  flashErase r a.1 { a.2 with err := a.1 }

/-- The end of a FLASH_ERASE after FlashLock (rule R108): ERASE_OUTCOME and its status byte. -/
def eraseFinish (s : State) : State :=
  let s1 := { s with eraseOutcome := outcomeOf s.err }
  match s1.eraseOutcome with
  | .succeeded => endCycle (sendPayload [eraseStatusByte s1.cfg .succeeded] s1)
  | .failed => abort .eraseHardwareFailure s1

/-- FLASH_ERASE (rule R108): verification, then the page-count bound, then the sentinel, then the hardware result
(rule R109). -/
def execFlashErase (f : Frame) (s : State) : Result :=
  let code := s.cfg.cmdFlashErase
  verified code f s fun s1 =>
    let s2 := sendAckHeader 1 (readEraseFields (f.bytes code) s1)
    let s3 := { s2 with pageStatus := pageBounds s2.cfg s2.pCount }
    match s3.pageStatus with
    | .invalid => .next (abort .pageNumberInvalid s3)
    | .valid => andThen (flashBracket eraseRequests s3) fun s4 => .next (eraseFinish s4)

/-- The programming loop of rule R112, with `n` halfwords left: K counts the halfwords done. A failed halfword sets
W_STATUS <- Failed and, when PROGRAM_STOP_ON_FAIL, ends the loop before K is advanced (rule R114). -/
def programLoop (bs : List Byte) : Nat → State → Result
  | 0, s => .next s
  | n + 1, s =>
    let h := dataHalf bs s.k.toNat s
    let ok := programAnswer h.2
    andThen (flashProgram (halfAddr s.wAddr s.k.toNat) h.1 ok.1 ok.2) fun s1 =>
      let s2 := { s1 with wStatus := if ok.1 then s1.wStatus else .failed }
      if s2.cfg.programStopOnFail && !ok.1 then .next s2
      else programLoop bs n { s2 with k := s2.k + 1 }

/-- The end of a MEMORY_WRITE after FlashLock (rule R112): the status byte of W_STATUS. -/
def writeFinish (s : State) : State :=
  match s.wStatus with
  | .passed => endCycle (sendPayload [writeStatusByte s.cfg .passed] s)
  | .failed => abort .programHardwareFailure s

/-- MEMORY_WRITE (rule R112): only the start address is validated (rule R104). -/
def execMemoryWrite (f : Frame) (s : State) : Result :=
  let code := s.cfg.cmdMemoryWrite
  verified code f s fun s1 =>
    let s2 := sendAckHeader 1 (readWriteFields (f.bytes code) s1)
    let s3 := { s2 with verdict := addrValid s2.cfg s2.wAddr }
    match s3.verdict with
    | .invalid => .next (abort .addressInvalid s3)
    | .valid =>
      andThen
        (flashBracket
          (fun s4 => programLoop (f.bytes code) (halfCount s4.wLen) { s4 with wStatus := .passed, k := 0 }) s3)
        fun s5 => .next (writeFinish s5)

end Sys2Proof.Machine
end

