-- ==== Sys2Proof/Machine/Info.lean ====
section
/-! DEFINITION. The information commands: GET_VERSION, GET_HELP, GET_CHIP_ID, GO_TO_ADDRESS (rules R91 to R98) and
frames with an Unknown code (rule R99). -/

namespace Sys2Proof.Machine

/-- GET_VERSION (rule R91). -/
def execGetVersion (f : Frame) (s : State) : Result :=
  verified s.cfg.cmdGetVersion f s fun s1 =>
    .next (endCycle (sendAck 4 [s1.cfg.vendorId, s1.cfg.verMajor, s1.cfg.verMinor, s1.cfg.verPatch] s1))

/-- HELP_SEND_COUNT as a number (rule R8). -/
def helpCount (c : Config) : Nat :=
  match c.helpSendCount with
  | .six => 6
  | .four => 4

/-- GET_HELP (rules R93 and R94): declares 6 and sends HELP_SEND_COUNT codes. -/
def execGetHelp (f : Frame) (s : State) : Result :=
  verified s.cfg.cmdGetHelp f s fun s1 =>
    .next (endCycle (sendAck 6 (s1.cfg.helpList.toList.take (helpCount s1.cfg)) s1))

/-- GET_CHIP_ID (rules R95 and R96): declares 6 and sends the first CID_SEND_LEN bytes of zext_48(DEV_ID). -/
def execGetChipId (f : Frame) (s : State) : Result :=
  verified s.cfg.cmdGetChipId f s fun s1 =>
    .next (endCycle (sendAck 6 ((idBytes (devIdRead s1)).take s1.cfg.cidSendLen) s1))

/-- GO_TO_ADDRESS (rules R97 and R98): recognised, with a Diag event and nothing else. It is not verified, and no
field of its frame is read. -/
def execGoToAddress (_f : Frame) (s : State) : Result :=
  .next (endCycle (beginCommand s.cfg.cmdGoToAddress s))

/-- A frame with an Unknown code (rules R73 and R99): the Diag event is a draw, and there is no response. It is no
row of the opcode table, so the step calls it directly. -/
def execUnknown (code : Byte) (s : State) : Result :=
  let d := drawBit { s with cmd := code }
  .next (abort .unknownCommand (if d.1 then emit (.diag code) d.2 else d.2))

end Sys2Proof.Machine
end

