-- ==== Sys2Proof/Machine/Dispatch.lean ====
section
/-! DEFINITION. The dispatcher's arms (rule R73): one per command. Each arm's meaning runs the whole cycle of its
command, from CMD <- FB(1) to PHASE <- WAIT_LEN (rule R72). -/

namespace Sys2Proof.Machine

def exec (i : Instr) (s : State) : Host.Outcome State Fault Refusal :=
  match i with
  | .getVersion f => Sys2Proof.Machine.execGetVersion f s
  | .getHelp f => Sys2Proof.Machine.execGetHelp f s
  | .getChipId f => Sys2Proof.Machine.execGetChipId f s
  | .goToAddress f => Sys2Proof.Machine.execGoToAddress f s
  | .flashErase f => Sys2Proof.Machine.execFlashErase f s
  | .memoryWrite f => Sys2Proof.Machine.execMemoryWrite f s

end Sys2Proof.Machine
end

