-- ==== Sys2Proof/Machine/Receiver.lean ====
section
/-! DEFINITION. The receive sequencer (rules R67 to R72) and the frame it hands to Dispatch. -/

namespace Sys2Proof.Machine

/-- Frame completion (rule R71): MalformedFrame if RXLEN < 5, else PHASE <- EXEC. -/
def frameComplete (s : State) : State :=
  if s.rxlen.toNat < 5 then abort .malformedFrame s else { s with phase := .exec }

/-- The receive loop's test (rule R67): wait for a body byte while RXCNT < RXLEN, else the frame is complete. -/
def awaitBody (s : State) : State :=
  if s.rxcnt < s.rxlen then { s with phase := .waitBody } else frameComplete s

/-- RXBUF[i] <- b (rule R31: indices 0 to 255). -/
def bufferWrite (i b : Byte) (s : State) : State := { s with rxbuf := s.rxbuf.set i.toNat b i.isLt }

/-- The length-byte step (rule R68). -/
def lengthByte (b : Byte) (s : State) : State :=
  awaitBody { bufferWrite 0 b s with rxlen := b, rxcnt := 0 }

/-- The body-byte step (rule R69). -/
def bodyByte (b : Byte) (s : State) : State :=
  awaitBody { bufferWrite (1 + s.rxcnt) b s with rxcnt := s.rxcnt + 1 }

/-- RxNext() (rules R11 and R41) with what the receiver does on each event: it consumes the event it returns. With
no event to come the block waits: nothing changes (rules R30 and R125, assumption 5). -/
def rxNext (onByte : Byte → State → State) (s : State) : State :=
  match s.rxIn with
  | [] => s
  | .byte b :: rest => onByte b { s with rxIn := rest }
  | .error :: rest => abort .transportFailure { s with rxIn := rest }

/-- The frame bytes 0 to RXLEN (rules R17 and R46). -/
def receivedBytes (s : State) : List Byte := s.rxbuf.toList.take (s.rxlen.toNat + 1)

/-- Put the bytes of a whole frame in the receive buffer, as the receiver leaves them (rules R68, R69 and R71). -/
def loadFrame (bs : List Byte) (s : State) : State :=
  { s with
    rxbuf := Vector.ofFn fun i : Fin 256 => bs.getD i.val (s.rxbuf.get i)
    rxlen := bs.headD 0
    rxcnt := bs.headD 0
    phase := .exec }

end Sys2Proof.Machine
end

