-- ==== Sys2Proof/Machine/Cycle.lean ====
section
/-! DEFINITION. What the block does next: one RX event while it receives (rules R67 to R71), one whole command while it
executes (rules R72, R73 and R44), or a reset (rules R28, R141 and R142). -/

namespace Sys2Proof.Machine

/-- The command in RXBUF[0..RXLEN]: its whole cycle is one step, since EXEC consumes no RX event and only a reset cuts
it short (rules R72 and R142). -/
def dispatch (s : State) : Result :=
  match decode s.cfg (receivedBytes s) with
  | .instr i [] => exec i s
  | .unknown code _ [] => execUnknown code s
  | .instr _ (_ :: _) => .fault .corruptFrame
  | .unknown _ _ (_ :: _) => .fault .corruptFrame
  | .rejected _ => .fault .corruptFrame

/-- What PHASE selects (rule R16). -/
def advance (s : State) : Result :=
  match s.phase with
  | .waitLen => .next (rxNext lengthByte s)
  | .waitBody => .next (if s.rxcnt < s.rxlen then rxNext bodyByte s else frameComplete s)
  | .exec => dispatch s

/-- What a reset in the middle of a cycle leaves of the collaborators (rule R142): any value (I23). The controller's
lock is a draw, and nothing is known of the array. -/
def cutShort (s : State) : State :=
  let d := drawBit s
  { d.2 with unlocked := d.1, flash := [], history := [] }

/-- A reset of the block (rules R28, R141 and R142). The elements the spec leaves unspecified keep what they hold; the
configuration, the input to come and, between two cycles, the collaborators are not the block's to reset. EVT starts
anew, so of a command that is cut short the trace keeps no event. -/
def resetBlock (s : State) : State :=
  let s1 :=
    match s.phase with
    | .waitLen => s
    | .waitBody => cutShort s
    | .exec => cutShort s
  { s1 with phase := .waitLen, crcAcc := s.cfg.crcInit, flashCs := false, evt := [] }

/-- The platform's next reset if it is due, in place of the step or in its middle, else the block's own step (rule
R142, assumption 8). -/
def advanceOrReset (s : State) : Result :=
  match s.resets with
  | [] => advance s
  | 0 :: rest => .next (resetBlock { s with resets := rest })
  | (n + 1) :: rest => advance { s with resets := n :: rest }

end Sys2Proof.Machine
end

