-- ==== Sys2Proof/Machine/Step.lean ====
section
/-! DEFINITION. One step of the block. -/

namespace Sys2Proof.Machine

/-- The step function. -/
def step (s : State) : Host.Outcome State Fault Refusal := advanceOrReset s

/-- `s` with the frame of an opcode-table word received and no reset to come, so that the very next step dispatches it
(assumption 9). -/
def State.withFetchWord (s : State) (nbits w : Nat) : State :=
  loadFrame (tableBytes s.cfg nbits w) { s with resets := [] }

end Sys2Proof.Machine
end

