-- ==== Sys2Proof/Safety.lean ====
section
/-! DEFINITION. What claims are stated with: the constraints on a configuration, projections of the trace, the
invariant of the states between two steps, and which parts of a state can be observed. -/

namespace Sys2Proof

/-- The constraints on CFG (rules R7, R8, R103 and R107; the list at the end of spec/92_eei_decisions.md). -/
abbrev Config.Ok (c : Config) : Prop :=
  c.codes.Nodup ∧ c.ackMarker ≠ c.nackMarker ∧ c.helpList.toList.Perm c.codes ∧ c.maxPages < 0xFF ∧
  c.flashBase ≤ c.flashEnd ∧ Machine.addrValid c 0 = .invalid ∧
  [c.stPageInvalid, c.stEraseOk, c.stEraseFail].Nodup ∧ c.stWriteOk ≠ c.stWriteFail ∧
  c.stWriteOk ≠ c.stAddrInvalid ∧ 1 ≤ c.cidSendLen ∧ c.cidSendLen ≤ 6

namespace Machine

/-- The events no host-visible claim may depend on (rule R74). -/
def Event.isDiag : Event → Bool
  | .diag _ => true
  | .tx _ => false
  | .flashUnlock => false
  | .flashLock => false
  | .erase _ _ => false
  | .program _ _ _ => false

/-- The events at the flash port (rule R101). -/
def Event.isFlash : Event → Bool
  | .diag _ => false
  | .tx _ => false
  | .flashUnlock => true
  | .flashLock => true
  | .erase _ _ => true
  | .program _ _ _ => true

/-- The flash requests that change the flash array (rules R25 and R41). -/
def Event.isArrayRequest : Event → Bool
  | .diag _ => false
  | .tx _ => false
  | .flashUnlock => false
  | .flashLock => false
  | .erase _ _ => true
  | .program _ _ _ => true

/-- A program request's success; every other event counts as a success. -/
def Event.okay : Event → Bool
  | .program _ _ ok => ok
  | .diag _ => true
  | .tx _ => true
  | .flashUnlock => true
  | .flashLock => true
  | .erase _ _ => true

/-- The bytes an event transmits, if it transmits any. -/
def Event.sent : Event → Option (List Byte)
  | .tx bs => some bs
  | .diag _ => none
  | .flashUnlock => none
  | .flashLock => none
  | .erase _ _ => none
  | .program _ _ _ => none

/-- The transmissions of a list of events, in order: what the host receives. -/
def transmissions (es : List Event) : List (List Byte) := es.filterMap Event.sent

/-- Follow the critical section along a list of events (rule R101): `none` if an event breaks a precondition of that
rule, else whether the critical section is held at the end. -/
def bracketRun (held : Bool) : List Event → Option Bool
  | [] => some held
  | .flashUnlock :: es => if held then none else bracketRun true es
  | .flashLock :: es => if held then bracketRun false es else none
  | .erase _ _ :: es => if held then bracketRun held es else none
  | .program _ _ _ :: es => if held then bracketRun held es else none
  | .tx _ :: es => bracketRun held es
  | .diag _ :: es => bracketRun held es

/-- What holds of every state between two steps (rules R18, R22, R28, R29, R68 to R72 and R101). -/
structure Inv (s : State) : Prop where
  /-- Rule R29. -/
  crcAtRest : s.crcAcc = s.cfg.crcInit
  /-- Rule R22. -/
  lockAtRest : s.flashCs = false
  /-- Rule R18. -/
  bodyDue : s.phase = .waitBody → s.rxcnt < s.rxlen
  /-- Rules R18 and R71. -/
  frameDone : s.phase = .exec → s.rxcnt = s.rxlen ∧ 5 ≤ s.rxlen.toNat
  /-- Rule R15: RXLEN is a copy of RXBUF[0] of the current frame. -/
  lengthCopied : s.phase ≠ .waitLen → s.rxbuf[0] = s.rxlen
  /-- Rule R101: every flash request so far lay inside the bracket, and the bracket is closed. -/
  bracketed : bracketRun false s.evt = some false
  /-- The flash array keeps its canonical form. -/
  flashWf : s.flash.wf

/-- Two states that agree on everything the block can read before it writes it (rules R17, R20 and R28): they may
differ in the working registers, in RXBUF above the bytes received of the current frame, and, between frames, in the
whole of RXBUF, RXLEN and RXCNT. -/
structure SameLive (s t : State) : Prop where
  cfg : s.cfg = t.cfg
  phase : s.phase = t.phase
  crcAcc : s.crcAcc = t.crcAcc
  flashCs : s.flashCs = t.flashCs
  evt : s.evt = t.evt
  rxIn : s.rxIn = t.rxIn
  oracle : s.oracle = t.oracle
  drawCount : s.drawCount = t.drawCount
  flash : s.flash = t.flash
  history : s.history = t.history
  controller : s.controller = t.controller
  unlocked : s.unlocked = t.unlocked
  resets : s.resets = t.resets
  rxlen : s.phase ≠ .waitLen → s.rxlen = t.rxlen
  rxcnt : s.phase ≠ .waitLen → s.rxcnt = t.rxcnt
  rxbuf : s.phase ≠ .waitLen → ∀ i : Fin 256, i.val ≤ s.rxcnt.toNat → s.rxbuf.get i = t.rxbuf.get i

/-- The checksum the block computes over a frame's covered region in state `s` (rules R48 and R76). -/
def frameSum (s : State) (code : Byte) (f : Frame) : Word := crcFold s.cfg.crcUnit s.crcAcc (f.covered code)

/-- The state after a verified command whose verification failed (rules R72, R74, R76 and R78): besides Verify()'s
writes, one Diag event and one NACK. -/
def nackState (code : Byte) (f : Frame) (s : State) : State :=
  { s with
    phase := .waitLen
    cmd := code
    hostCrc := f.crc
    verify := .failed
    crcAcc := s.cfg.crcInit
    evt := s.evt ++ [.diag code, .tx [s.cfg.nackMarker]] }

/-- The state after a verified command whose verification passed and whose handler added the events `es` and wrote
no other state. -/
def doneState (code : Byte) (f : Frame) (es : List Event) (s : State) : State :=
  { s with
    phase := .waitLen
    cmd := code
    hostCrc := f.crc
    verify := .passed
    crcAcc := s.cfg.crcInit
    evt := s.evt ++ .diag code :: es }

end Machine
end Sys2Proof
end

