-- ==== Sys2Proof/Certificates/Slice0/Obligations.lean ====
section
/-! DEFINITION. The statements for the provers, in the order of the spec's files. -/

open Sys2Proof Sys2Proof.Machine

/-! ### Reset and the invariant (10_state.md, 70_reset_and_hazards.md) -/

/-- Rules R28 and R141: what a reset leaves in the elements the spec gives a reset value, for every configuration,
at power-on and for a reset of a block that has run; a reset changes no configuration (rule R142). The values of the
other elements at power-on are the model's choice (assumption 3), and so are the ones a later reset keeps. -/
def Obligations.ResetLeavesSpecifiedValues : Prop :=
  (∀ c : Config, (State.resetWith c).phase = .waitLen ∧ (State.resetWith c).crcAcc = c.crcInit ∧
    (State.resetWith c).flashCs = false ∧ (State.resetWith c).evt = [] ∧ (State.resetWith c).cfg = c) ∧
  (∀ s : State, (resetBlock s).phase = .waitLen ∧ (resetBlock s).crcAcc = s.cfg.crcInit ∧
    (resetBlock s).flashCs = false ∧ (resetBlock s).evt = [] ∧ (resetBlock s).cfg = s.cfg)

/-- What a reset leaves, field by field. By rules R141 and R142, in every PHASE the partial frame is lost, nothing is
sent, PHASE, CRC_ACC, FLASH_CS and EVT take their reset values and the configuration is kept; and after one in the middle of
a cycle the collaborators have any value (I23): the flash controller is locked or unlocked as a draw says, listed or free,
and nothing is known of the array or of erased pages. The rest is the model's choice: that a reset in WAIT_LEN, between two
cycles, leaves the controller's lock, the array and the record of requests alone, that one in WAIT_BODY counts as in the
middle of a cycle, and that the input to come is kept (assumption 8); what the elements without a reset value hold
(assumption 3); and the form of the draw (assumption 4). -/
def Obligations.ResetInsideACycleLosesTheFrame : Prop :=
  ∀ s : State,
    (s.phase = .waitLen → resetBlock s = { s with crcAcc := s.cfg.crcInit, flashCs := false, evt := [] }) ∧
    (s.phase ≠ .waitLen → ∀ (w : Word) (ws : List Word), resetBlock { s with oracle := w :: ws } = { s with
      phase := .waitLen, crcAcc := s.cfg.crcInit, flashCs := false, evt := []
      oracle := ws, unlocked := w.getLsbD 0, flash := [], history := [] }) ∧
    (s.phase ≠ .waitLen → s.oracle = [] → resetBlock s = { s with
      phase := .waitLen, crcAcc := s.cfg.crcInit, flashCs := false, evt := []
      drawCount := s.drawCount + 1, unlocked := (Config.freeWord s.drawCount).getLsbD 0, flash := [], history := [] })

/-- Rules R141 and R142: a reset of the platform's can come at any step, one that executes a command included. When it
is due it takes the place of the step; until then the block runs as it does with no reset to come. That resets stand in
State as a list is the model's choice (assumption 8). -/
def Obligations.ResetCanComeAtAnyStep : Prop :=
  ∀ (s : State) (rest : List Nat),
    (s.resets = 0 :: rest → step s = .next (resetBlock { s with resets := rest })) ∧
    ∀ (n : Nat) (t : State), s.resets = (n + 1) :: rest → step { s with resets := [] } = .next t →
      step s = .next { t with resets := n :: rest }

/-- The invariant holds at the machine's reset state, after power-on in every configuration, and after a reset of any
block that met it. That the reset state has the test configuration is the model's choice (assumption 2). -/
def Obligations.ResetStateMeetsInvariant : Prop :=
  Inv State.reset ∧ (∀ c : Config, Inv (State.resetWith c)) ∧ ∀ s : State, Inv s → Inv (resetBlock s)

/-- Rules R29, R22 and R18 as one invariant of every state between two steps, with rule R101's bracket on the trace
and the canonical form of the flash array. -/
def Obligations.StepKeepsInvariant : Prop :=
  ∀ s t : State, Inv s → step s = .next t → Inv t

/-- "The block is reactive and never halts by itself" (rule R30): from every state that meets the invariant a step
answers a next state, so neither fault of the model is ever raised. -/
def Obligations.StepFromInvNeverStops : Prop :=
  ∀ s : State, Inv s → ∃ t : State, step s = .next t

/-- Rules R17, R20 and R28: the working registers, the receive buffer above the bytes received, and between frames
all of RXBUF, RXLEN and RXCNT, are never read before they are written. Two states that differ only there step to
states that differ only there, with the same trace. -/
def Obligations.StaleStateIsNeverObserved : Prop :=
  ∀ s t s' : State, Inv s → SameLive s t → step s = .next s' →
    ∃ t' : State, step t = .next t' ∧ SameLive s' t'

/-- Rules R23, R24 and R142: no step changes the configuration (that it stands in State is the model's choice:
assumption 1), nor what is assumed of the flash controller (assumption 6). -/
def Obligations.StepNeverChangesConfiguration : Prop :=
  ∀ s t : State, step s = .next t → t.cfg = s.cfg ∧ t.controller = s.controller

/-- Rules R27, R127 and R142: a step only appends to the trace, and nothing but a reset empties it. -/
def Obligations.StepOnlyAppendsEvents : Prop :=
  ∀ s t : State, step s = .next t →
    (∃ es : List Event, t.evt = s.evt ++ es) ∨ (∃ rest : List Nat, s.resets = 0 :: rest) ∧ t.evt = []

/-- Rule R25: the flash array, as far as it is known, is changed only by erase and program requests, and the requests
are recorded with their answers (assumption 7). A step at which a reset is due is the one of rule R142. -/
def Obligations.FlashArrayChangesOnlyByRequests : Prop :=
  ∀ (s t : State) (es : List Event), s.resets.head? ≠ some 0 → step s = .next t → t.evt = s.evt ++ es →
    t.history = (es.filter Event.isArrayRequest).reverse ++ s.history ∧
    ((∀ e ∈ es, e.isArrayRequest = false) → t.flash = s.flash)

/-- I16 with rule R25: after a command that has made any erase or program request, answered as it may be, the array's
contents are any value: no address is known. This is the machine's own setting of `controller`; the other one is
assumption 6. -/
def Obligations.ArrayRequestsLeaveAnyContents : Prop :=
  ∀ (i : Instr) (s t : State) (es : List Event), s.controller = .anyContents → exec i s = .next t →
    t.evt = s.evt ++ es → (∃ e ∈ es, e.isArrayRequest = true) → ∀ a : Nat, t.flash.read a = none

/-- Rule R30: a session's run ends, with its input exhausted and the block waiting in WAIT_LEN or WAIT_BODY, whatever
resets the platform gives on the way (that the input to come outlives a reset is the model's choice: assumption 8). -/
def Obligations.EverySessionEndsWaiting : Prop :=
  ∀ s : State, Inv s →
    ∃ t : State, core.run (2 * s.rxIn.length + s.resets.length + 1) s = .next t ∧ t.rxIn = [] ∧ Inv t ∧
      (t.phase = .waitLen ∨ t.phase = .waitBody)

/-! ### Byte order and operands (20_memory.md, 30_encoding.md) -/

/-- Rule R32: frame byte RXLEN-3 of a well-formed frame is bits 7:0 of HOST_CRC and frame byte RXLEN bits 31:24;
the bytes of the frame are RXLEN + 1 (rule R46). -/
def Obligations.ChecksumFieldIsLittleEndian : Prop :=
  ∀ (code : Byte) (f : Frame), f.lengthMatches = true →
    (f.bytes code).length = f.len.toNat + 1 ∧
    ∃ b0 b1 b2 b3 : Byte,
      (f.bytes code)[f.len.toNat - 3]? = some b0 ∧ (f.bytes code)[f.len.toNat - 2]? = some b1 ∧
      (f.bytes code)[f.len.toNat - 1]? = some b2 ∧ (f.bytes code)[f.len.toNat]? = some b3 ∧
      f.crc.toNat = b0.toNat + 2 ^ 8 * b1.toNat + 2 ^ 16 * b2.toNat + 2 ^ 24 * b3.toNat ∧
      ∀ s : State, (verifyFrame code f s).hostCrc = f.crc

/-- Rules R33, R51 and R55: FLASH_ERASE's page_count is payload byte 0 and its page_address the little-endian word
at payload bytes 1 to 4, and reading them draws nothing. -/
def Obligations.EraseFieldsAreReadLittleEndian : Prop :=
  ∀ (code count a0 a1 a2 a3 : Byte) (extra : List Byte) (f : Frame) (s : State),
    f.payload = count :: a0 :: a1 :: a2 :: a3 :: extra →
    ∃ a : Word, readEraseFields (f.bytes code) s = { s with pCount := count, pAddr := a } ∧
      a.toNat = a0.toNat + 2 ^ 8 * a1.toNat + 2 ^ 16 * a2.toNat + 2 ^ 24 * a3.toNat

/-- Rules R33, R34, R52 and R55: MEMORY_WRITE's target_address is the little-endian word at payload bytes 0 to 3,
its length payload byte 4, and halfword k the data bytes 2k (bits 7:0) and 2k+1 (bits 15:8). -/
def Obligations.WriteFieldsAreReadLittleEndian : Prop :=
  ∀ (code a0 a1 a2 a3 len : Byte) (data : List Byte) (f : Frame) (s : State),
    f.payload = a0 :: a1 :: a2 :: a3 :: len :: data →
    (∃ a : Word, readWriteFields (f.bytes code) s = { s with wAddr := a, wLen := len } ∧
      a.toNat = a0.toNat + 2 ^ 8 * a1.toNat + 2 ^ 16 * a2.toNat + 2 ^ 24 * a3.toNat) ∧
    ∀ (k : Nat) (d0 d1 : Byte), data[2 * k]? = some d0 → data[2 * k + 1]? = some d1 →
      ∃ h : Half, dataHalf (f.bytes code) k s = (h, s) ∧ h.toNat = d0.toNat + 2 ^ 8 * d1.toNat

/-- FB(i) of rule R11, and rule R54: a byte of the frame, checksum bytes included, is read as received and draws
nothing; a byte beyond the frame is the next draw, whatever the receive buffer holds there (where a draw comes from
is the model's choice: assumption 4). -/
def Obligations.BytesBeyondTheFrameAreDraws : Prop :=
  ∀ (code : Byte) (f : Frame) (i : Nat) (s : State), f.lengthMatches = true →
    (i ≤ f.len.toNat → ∃ b : Byte, (f.bytes code)[i]? = some b ∧ frameByte (f.bytes code) i s = (b, s)) ∧
    (f.len.toNat < i → ∀ (w : Word) (ws : List Word), s.oracle = w :: ws →
      frameByte (f.bytes code) i s = (w.setWidth 8, { s with oracle := ws })) ∧
    (f.len.toNat < i → s.oracle = [] →
      frameByte (f.bytes code) i s = ((Config.freeWord s.drawCount).setWidth 8,
        { s with drawCount := s.drawCount + 1 }))

/-- A few opcode-table commands, each as the spec's own frame of it, byte by byte (spec/95_test_vectors.md GV-1,
GT-1, FE-1 and MW-1). -/
def Obligations.SpecFramesDecode : Prop :=
  decode Config.tc [0x05, 0x10, 0x27, 0x84, 0xEC, 0x4C] = .instr (.getVersion ⟨5, [], 0x4CEC8427⟩) [] ∧
  decode Config.tc [0x09, 0x14, 0x00, 0x80, 0x00, 0x08, 0xE7, 0x68, 0xC3, 0xCB] =
    .instr (.goToAddress ⟨9, [0x00, 0x80, 0x00, 0x08], 0xCBC368E7⟩) [] ∧
  decode Config.tc [0x0A, 0x15, 0x02, 0x00, 0x80, 0x00, 0x08, 0xD2, 0x6D, 0x27, 0xFA] =
    .instr (.flashErase ⟨10, [0x02, 0x00, 0x80, 0x00, 0x08], 0xFA276DD2⟩) [] ∧
  decode Config.tc [0x0E, 0x16, 0x00, 0x80, 0x00, 0x08, 0x04, 0x11, 0x22, 0x33, 0x44, 0x77, 0x8F, 0x72, 0x64] =
    .instr (.memoryWrite ⟨14, [0x00, 0x80, 0x00, 0x08, 0x04, 0x11, 0x22, 0x33, 0x44], 0x64728F77⟩) []

/-- Rules R46, R47 and R56: the frame of every well-formed command decodes to that command, with every payload and
checksum bit, and leaves the bytes after it, in every configuration whose codes are distinct. -/
def Obligations.DecodeOfEncodeIsTheInstruction : Prop :=
  ∀ (c : Config) (i : Instr) (rest : List Byte), c.codes.Nodup → i.wf = true →
    decode c (encode c i ++ rest) = .instr i rest

/-- The other direction: whatever decodes is well formed, and its bytes are the ones that were read. The same for a
frame with an Unknown code, which is none of the six. -/
def Obligations.EncodeOfDecodeIsTheBytes : Prop :=
  ∀ (c : Config) (bs rest : List Byte),
    (∀ i : Instr, decode c bs = .instr i rest → i.wf = true ∧ encode c i ++ rest = bs) ∧
    (∀ (code : Byte) (f : Frame), decode c bs = .unknown code f rest →
      f.lengthMatches = true ∧ f.bytes code ++ rest = bs ∧ code ∉ c.codes)

/-- Rule R57: "Every u8 command byte that equals none of the six CMD_* parameters is Unknown", and with the six codes
distinct these are 250 of the 256 values. -/
def Obligations.UnknownCodesAreAllTheOthers : Prop :=
  ∀ (c : Config) (f : Frame),
    (∀ code : Byte, commandOf c code f = none ↔ code ∉ c.codes) ∧
    (c.codes.Nodup → ((List.range 256).filter fun n => (commandOf c (BitVec.ofNat 8 n) f).isNone).length = 250)

/-! ### The receiver and the dispatcher (40_frame_receiver.md)

A statement of one concrete step has no reset to come: `Obligations.ResetCanComeAtAnyStep` says what the step is when
one is. -/

/-- Rule R125: the wait is a step that only an RX event enables. With no event to come nothing changes (the form of
the wait, a step that changes nothing, is the model's choice: assumption 5). -/
def Obligations.WaitingWithoutInputChangesNothing : Prop :=
  ∀ s : State, s.resets = [] → s.rxIn = [] → (s.phase = .waitLen ∨ s.phase = .waitBody ∧ s.rxcnt < s.rxlen) → step s = .next s

/-- Rule R68, the length-byte step, with its corner case b == 0, which rule R71 discards. -/
def Obligations.LengthByteStartsAFrame : Prop :=
  ∀ (s : State) (b : Byte) (rest : List RxEvent), s.resets = [] → s.phase = .waitLen →
    s.rxIn = .byte b :: rest →
    step s = .next { s with
      rxIn := rest, rxbuf := s.rxbuf.set 0 b, rxlen := b, rxcnt := 0
      phase := if b = 0 then .waitLen else .waitBody }

/-- Rules R69 and R71, the body-byte step: the byte goes to index 1 + RXCNT, which never exceeds 255, and when RXCNT
reaches RXLEN the frame is discarded if RXLEN < 5 and goes to EXEC otherwise. No event is emitted and CRC_ACC does
not change. -/
def Obligations.BodyByteExtendsTheFrame : Prop :=
  ∀ (s : State) (b : Byte) (rest : List RxEvent), s.resets = [] → s.phase = .waitBody →
    s.rxcnt < s.rxlen → s.rxIn = .byte b :: rest →
    ∃ i : Fin 256, i.val = 1 + s.rxcnt.toNat ∧
      step s = .next { s with
        rxIn := rest, rxbuf := s.rxbuf.set i.val b i.isLt, rxcnt := s.rxcnt + 1
        phase := if s.rxcnt.toNat + 1 < s.rxlen.toNat then .waitBody
          else if s.rxlen.toNat < 5 then .waitLen else .exec }

/-- Rule R70: an RxError while the block waits aborts the cycle. The event is consumed, PHASE becomes WAIT_LEN,
CRC_ACC is untouched, and nothing is sent but, under NACK_ON_RX_ERROR, one NACK. -/
def Obligations.TransportErrorAbortsTheCycle : Prop :=
  ∀ (s : State) (rest : List RxEvent), s.resets = [] → s.rxIn = .error :: rest →
    (s.phase = .waitLen ∨ s.phase = .waitBody ∧ s.rxcnt < s.rxlen) →
    step s = .next { s with
      rxIn := rest, phase := .waitLen
      evt := if s.cfg.nackOnRxError then s.evt ++ [.tx [s.cfg.nackMarker]] else s.evt }

/-- Rules R49 and R71: a whole frame with RXLEN < 5 is read and discarded, with no event and no change but to the
receive registers and the input. -/
def Obligations.ShortFrameIsDiscarded : Prop :=
  ∀ (s : State) (len : Byte) (body : List Byte) (rest : List RxEvent), s.resets = [] →
    s.phase = .waitLen → body.length = len.toNat → len.toNat < 5 → s.rxIn = (len :: body).map .byte ++ rest →
    ∃ t : State, core.run (len.toNat + 1) s = .next t ∧
      t = { s with rxIn := rest, rxbuf := t.rxbuf, rxlen := len, rxcnt := len } ∧
      receivedBytes t = len :: body

/-- Rules R67 to R72, end to end: the bytes of any well-formed command, received from WAIT_LEN, take RXLEN + 1 steps
that change nothing but the receive registers, PHASE and the input; RXBUF then holds the frame, and the next step runs
exactly that command. -/
def Obligations.ReceivedFrameIsExecuted : Prop :=
  ∀ (s : State) (i : Instr) (rest : List RxEvent), s.cfg.codes.Nodup → i.wf = true → s.resets = [] →
    s.phase = .waitLen → s.rxIn = (encode s.cfg i).map .byte ++ rest →
    ∃ t : State, core.run (i.frame.len.toNat + 1) s = .next t ∧
      t = { s with rxIn := rest, phase := .exec, rxbuf := t.rxbuf, rxlen := i.frame.len, rxcnt := i.frame.len } ∧
      receivedBytes t = encode s.cfg i ∧ step t = exec i t

/-- In EXEC a step runs what RXBUF[0..RXLEN] decodes to: the command's meaning, or the Unknown code's (rules R16 and
R73). The meaning ends the cycle itself (rule R72), so the step adds nothing around it. -/
def Obligations.StepRunsTheDecodedInstruction : Prop :=
  ∀ s : State, s.resets = [] → s.phase = .exec →
    (∀ i : Instr, decode s.cfg (receivedBytes s) = .instr i [] → step s = exec i s) ∧
    (∀ (code : Byte) (f : Frame), decode s.cfg (receivedBytes s) = .unknown code f [] → step s = execUnknown code s)

/-- Rule R73: CMD is frame byte 1; the command whose code it is runs, and a byte that is none of the six codes runs
the Unknown arm. The command that runs has exactly the received bytes. -/
def Obligations.DispatchFollowsTheCommandByte : Prop :=
  ∀ s : State, Inv s → s.resets = [] → s.phase = .exec →
    (s.rxbuf[1] ∈ s.cfg.codes → ∃ i : Instr, codeOf s.cfg i = s.rxbuf[1] ∧ encode s.cfg i = receivedBytes s ∧
      step s = exec i s) ∧
    (s.rxbuf[1] ∉ s.cfg.codes → step s = execUnknown s.rxbuf[1] s)

/-- Rules R16, R72 and R124: an EXEC phase consumes no RX event, touches no receive register, and ends in WAIT_LEN. At a
step at which a reset is due, which this covers too, only the WAIT_LEN is the spec's (rule R141): that RXBUF, RXLEN and
RXCNT keep what they hold is the model's choice (assumption 3), and so is that the input to come is kept (assumption 8). -/
def Obligations.ExecTakesNoInputAndEndsTheCycle : Prop :=
  ∀ s t : State, s.phase = .exec → step s = .next t →
    t.phase = .waitLen ∧ t.rxIn = s.rxIn ∧ t.rxbuf = s.rxbuf ∧ t.rxlen = s.rxlen ∧ t.rxcnt = s.rxcnt

/-- Rule R74: each of the six known commands emits its Diag event first, and only once. -/
def Obligations.KnownCommandEmitsOneDiagFirst : Prop :=
  ∀ (i : Instr) (s t : State), exec i s = .next t →
    ∃ es : List Event, t.evt = s.evt ++ .diag (codeOf s.cfg i) :: es ∧ ∀ e ∈ es, e.isDiag = false

/-- Rule R76: Verify() folds the RXLEN-3 bytes of the covered region, each widened to a word, into CRC_ACC, compares
the result with the little-endian word in the last four bytes, and sets CRC_ACC to CRC_INIT on either result. It
changes nothing else. -/
def Obligations.VerifyComparesTheFoldedChecksum : Prop :=
  ∀ (code : Byte) (f : Frame) (s : State), f.lengthMatches = true →
    2 ≤ f.len.toNat - 3 ∧ f.len.toNat - 3 ≤ 252 ∧
    ∃ host : Word,
      (∀ j : Nat, j < 4 → (f.bytes code)[f.len.toNat - 3 + j]? = some (BitVec.ofNat 8 (host.toNat / 2 ^ (8 * j)))) ∧
      verifyFrame code f s = { s with
        hostCrc := host
        crcAcc := s.cfg.crcInit
        verify :=
          if ((f.bytes code).take (f.len.toNat - 3)).foldl
              (fun acc b => crcStep s.cfg.crcUnit acc (b.zeroExtend 32)) s.crcAcc = host
          then .passed else .failed }

/-- Rule R62: the frame a host builds for any code and any payload of at most 250 bytes is well formed, has L + 1
bytes, and passes Verify() in every configuration when CRC_ACC is at CRC_INIT; rule R77: with any other checksum it
gets Failed. -/
def Obligations.HostBuiltFrameVerifies : Prop :=
  ∀ (s : State) (code : Byte) (p : List Byte), p.length ≤ 250 → s.crcAcc = s.cfg.crcInit →
    let f := hostFrame s.cfg code p
    f.lengthMatches = true ∧ (f.bytes code).length = p.length + 6 ∧ f.payload = p ∧
    (verifyFrame code f s).verify = .passed ∧
    ∀ x : Word, x ≠ f.crc → (verifyFrame code { f with crc := x } s).verify = .failed

/-- Rule R78 and the first failing check of rule R126: with a wrong checksum each of the five verified commands sends
a NACK and has no other effect, whatever its operands are. The whole next state is given. GO_TO_ADDRESS and Unknown
frames do not run Verify(): what it writes is unchanged. -/
def Obligations.FailedVerificationOnlyNacks : Prop :=
  ∀ (f : Frame) (code : Byte) (s : State),
    (frameSum s s.cfg.cmdGetVersion f ≠ f.crc →
      exec (.getVersion f) s = .next (nackState s.cfg.cmdGetVersion f s)) ∧
    (frameSum s s.cfg.cmdGetHelp f ≠ f.crc → exec (.getHelp f) s = .next (nackState s.cfg.cmdGetHelp f s)) ∧
    (frameSum s s.cfg.cmdGetChipId f ≠ f.crc → exec (.getChipId f) s = .next (nackState s.cfg.cmdGetChipId f s)) ∧
    (frameSum s s.cfg.cmdFlashErase f ≠ f.crc →
      exec (.flashErase f) s = .next (nackState s.cfg.cmdFlashErase f s)) ∧
    (frameSum s s.cfg.cmdMemoryWrite f ≠ f.crc →
      exec (.memoryWrite f) s = .next (nackState s.cfg.cmdMemoryWrite f s)) ∧
    (∀ t : State, exec (.goToAddress f) s = .next t ∨ execUnknown code s = .next t →
      t.verify = s.verify ∧ t.hostCrc = s.hostCrc ∧ t.crcAcc = s.crcAcc)

/-- Rule R82: each verified command that completes sends exactly one response, a NACK or an ACK header and one
payload; GO_TO_ADDRESS and Unknown frames send none. -/
def Obligations.ResponsesPerDispatchedFrame : Prop :=
  (∀ (i : Instr) (s t : State) (es : List Event), exec i s = .next t → t.evt = s.evt ++ es →
    match i with
    | .goToAddress _ => transmissions es = []
    | .getVersion _ => transmissions es = [[s.cfg.nackMarker]] ∨
        ∃ n p, transmissions es = [[s.cfg.ackMarker, n], p]
    | .getHelp _ => transmissions es = [[s.cfg.nackMarker]] ∨
        ∃ n p, transmissions es = [[s.cfg.ackMarker, n], p]
    | .getChipId _ => transmissions es = [[s.cfg.nackMarker]] ∨
        ∃ n p, transmissions es = [[s.cfg.ackMarker, n], p]
    | .flashErase _ => transmissions es = [[s.cfg.nackMarker]] ∨
        ∃ p, transmissions es = [[s.cfg.ackMarker, 1], [p]]
    | .memoryWrite _ => transmissions es = [[s.cfg.nackMarker]] ∨
        ∃ p, transmissions es = [[s.cfg.ackMarker, 1], [p]]) ∧
  ∀ (code : Byte) (s t : State) (es : List Event), execUnknown code s = .next t → t.evt = s.evt ++ es →
    transmissions es = []

/-! ### Information commands (41_info_commands.md) -/

/-- Rule R91: GET_VERSION answers, for a frame of any length, a NACK if verification fails, else an ACK declaring 4
and the four version bytes. The whole next state is given, so nothing else changes. -/
def Obligations.GetVersionReportsTheVersionBytes : Prop :=
  ∀ (f : Frame) (s : State), exec (.getVersion f) s = .next
    (if frameSum s s.cfg.cmdGetVersion f = f.crc then
      doneState s.cfg.cmdGetVersion f
        [.tx [s.cfg.ackMarker, 4], .tx [s.cfg.vendorId, s.cfg.verMajor, s.cfg.verMinor, s.cfg.verPatch]] s
    else nackState s.cfg.cmdGetVersion f s)

/-- Rule R93: GET_HELP declares 6 in both settings of HELP_SEND_COUNT and sends that many codes of HELP_LIST. The
whole next state is given. -/
def Obligations.GetHelpReportsTheCommandCodes : Prop :=
  ∀ (f : Frame) (s : State), exec (.getHelp f) s = .next
    (if frameSum s s.cfg.cmdGetHelp f = f.crc then
      doneState s.cfg.cmdGetHelp f
        [.tx [s.cfg.ackMarker, 6],
         .tx (match s.cfg.helpSendCount with
          | .six => [s.cfg.helpList[0], s.cfg.helpList[1], s.cfg.helpList[2], s.cfg.helpList[3], s.cfg.helpList[4],
              s.cfg.helpList[5]]
          | .four => [s.cfg.helpList[0], s.cfg.helpList[1], s.cfg.helpList[2], s.cfg.helpList[3]])] s
    else nackState s.cfg.cmdGetHelp f s)

/-- Rule R95: GET_CHIP_ID declares 6 and sends the first CID_SEND_LEN of six bytes: bits 7:0 of the id, its bits 11:8
in the low nibble of byte 1 with 0 above, then zeros. The whole next state is given. -/
def Obligations.GetChipIdReportsTheDeviceId : Prop :=
  ∀ (f : Frame) (s : State), exec (.getChipId f) s = .next
    (if frameSum s s.cfg.cmdGetChipId f = f.crc then
      doneState s.cfg.cmdGetChipId f
        [.tx [s.cfg.ackMarker, 6],
         .tx (([BitVec.ofNat 8 (s.cfg.devId.toNat % 256), BitVec.ofNat 8 (s.cfg.devId.toNat / 256), 0, 0, 0, 0] :
          List Byte).take s.cfg.cidSendLen)] s
    else nackState s.cfg.cmdGetChipId f s)

/-- Rules R97 and R98: GO_TO_ADDRESS, with any frame, right or wrong checksum, emits its Diag event and does nothing
else; CMD is written by Dispatch (rule R73, assumption 10). The whole next state is given. -/
def Obligations.GoToAddressDoesNothing : Prop :=
  ∀ (f : Frame) (s : State), exec (.goToAddress f) s = .next
    { s with phase := .waitLen, cmd := s.cfg.cmdGoToAddress, evt := s.evt ++ [.diag s.cfg.cmdGoToAddress] }

/-- Rule R99: an Unknown frame has no response and is not verified. Its Diag event is a draw: nothing but CMD
(assumption 10), PHASE, the trace and the draws changes, and both outcomes are possible: from any state a draw with low
bit 0 gives no event, and one with low bit 1 the Diag event (that the bit is the low one is assumption 4). -/
def Obligations.UnknownCommandIsSilent : Prop :=
  ∀ (code : Byte) (s : State),
    (∃ t : State, execUnknown code s = .next t ∧ (t.evt = s.evt ∨ t.evt = s.evt ++ [.diag code]) ∧
      t = { s with phase := .waitLen, cmd := code, evt := t.evt, oracle := t.oracle, drawCount := t.drawCount }) ∧
    ∀ (w : Word) (ws : List Word),
      (w.getLsbD 0 = false → execUnknown code { s with oracle := w :: ws } =
        .next { s with phase := .waitLen, cmd := code, oracle := ws }) ∧
      (w.getLsbD 0 = true → execUnknown code { s with oracle := w :: ws } =
        .next { s with phase := .waitLen, cmd := code, oracle := ws, evt := s.evt ++ [.diag code] })

/-- Rule R92: the information commands and Unknown frames make no flash request and never change FLASH_CS; their only
events are Diag and Tx. The flash array is unchanged, byte for byte. -/
def Obligations.InformationCommandsLeaveFlashAlone : Prop :=
  ∀ (f : Frame) (code : Byte) (s t : State),
    (exec (.getVersion f) s = .next t ∨ exec (.getHelp f) s = .next t ∨ exec (.getChipId f) s = .next t ∨
      exec (.goToAddress f) s = .next t ∨ execUnknown code s = .next t) →
    t.flashCs = s.flashCs ∧ t.unlocked = s.unlocked ∧ t.history = s.history ∧
    (∀ a : Nat, t.flash.read a = s.flash.read a) ∧
    ∃ es : List Event, t.evt = s.evt ++ es ∧ ∀ e ∈ es, e.isFlash = false

/-! ### Address validator and flash commands (42_flash_commands.md) -/

/-- Rule R102: AddrValid, both bounds inclusive, and its first corner case. -/
def Obligations.AddrValidIsTheTwoRanges : Prop :=
  ∀ (c : Config) (a : Word),
    (addrValid c a = .valid ↔
      (c.flashBase.toNat ≤ a.toNat ∧ a.toNat ≤ c.flashEnd.toNat) ∨
      (c.sramBase.toNat ≤ a.toNat ∧
        a.toNat ≤ (match c.sramUpper with
          | .flashEnd => c.flashEnd
          | .sramEnd => c.sramEnd).toNat)) ∧
    (c.sramUpper = .flashEnd → c.flashEnd < c.sramBase →
      (addrValid c a = .valid ↔ c.flashBase.toNat ≤ a.toNat ∧ a.toNat ≤ c.flashEnd.toNat)) ∧
    (c.sramUpper = .flashEnd → c.sramBase ≤ c.flashEnd →
      (addrValid c a = .valid ↔
        min c.flashBase.toNat c.sramBase.toNat ≤ a.toNat ∧ a.toNat ≤ c.flashEnd.toNat))

/-- Rules R41 and R101: FlashUnlock unlocks the controller, sets FLASH_CS and may be issued only when FLASH_CS is false,
whatever a reset has left of the controller's lock; FlashLock locks it, clears FLASH_CS and, like every erase and program
request, may be issued only when FLASH_CS is true. That a request that breaks this stops by name is the model's choice
(assumption 8), and so is what a request records (assumption 7). -/
def Obligations.FlashRequestsKeepTheirPreconditions : Prop :=
  ∀ (s : State) (r : EraseRequest) (e : Word) (a : Word) (h : Half) (ok : Bool),
    (s.flashCs = false →
      flashUnlock s = .next { s with flashCs := true, unlocked := true, evt := s.evt ++ [.flashUnlock] } ∧
      flashLock s = .fault .flashBracket ∧ flashErase r e s = .fault .flashBracket ∧
      flashProgram a h ok s = .fault .flashBracket) ∧
    (s.flashCs = true →
      flashUnlock s = .fault .flashBracket ∧
      flashLock s = .next { s with flashCs := false, unlocked := false, evt := s.evt ++ [.flashLock] } ∧
      (∃ t : State, flashErase r e s = .next t ∧
        t = { s with evt := s.evt ++ [.erase r e], history := .erase r e :: s.history, flash := t.flash }) ∧
      (∃ t : State, flashProgram a h ok s = .next t ∧
        t = { s with evt := s.evt ++ [.program a h ok], history := .program a h ok :: s.history, flash := t.flash }))

/-- Rules R101, R118 and R119 for every command: from FLASH_CS == false it completes, its flash requests all lie
between one FlashUnlock and the next FlashLock, at most one of each, and FLASH_CS is false again. -/
def Obligations.EveryCommandKeepsTheFlashBracket : Prop :=
  ∀ (i : Instr) (s : State), s.flashCs = false →
    ∃ (t : State) (es : List Event), exec i s = .next t ∧ t.evt = s.evt ++ es ∧ t.flashCs = false ∧
      bracketRun false es = some false ∧ es.count .flashUnlock ≤ 1 ∧ es.count .flashLock = es.count .flashUnlock

/-- Rules R108, R109, R110 and R111: FLASH_ERASE, for every frame. P_COUNT is frame byte 2 and P_ADDR the
little-endian word at frame bytes 3 to 6 (draws where the frame has none, rule R54). Verification comes first, then
the page-count bound, then the sentinel; the answer is whatever the oracle gives (it is ERR of the next state), and
EraseSucceeded is reported iff it is 0. Every register not named keeps its value. What the erase leaves in the flash
array is not said. -/
def Obligations.FlashEraseRunsOneEraseInTheBracket : Prop :=
  ∀ (f : Frame) (s : State), s.flashCs = false →
    let code := s.cfg.cmdFlashErase
    let q := readEraseFields (f.bytes code) s
    (∀ b : Byte, (f.bytes code)[2]? = some b → q.pCount = b) ∧
    (∀ b0 b1 b2 b3 : Byte, (f.bytes code)[3]? = some b0 → (f.bytes code)[4]? = some b1 →
      (f.bytes code)[5]? = some b2 → (f.bytes code)[6]? = some b3 → q.pAddr = word32 b0 b1 b2 b3) ∧
    ∃ t : State, exec (.flashErase f) s = .next t ∧
      (frameSum s code f ≠ f.crc → t = nackState code f s) ∧
      (frameSum s code f = f.crc → s.cfg.maxPages < q.pCount →
        t = { doneState code f [.tx [s.cfg.ackMarker, 1], .tx [s.cfg.stPageInvalid]] s with
          pCount := q.pCount, pAddr := q.pAddr, pageStatus := .invalid,
          oracle := q.oracle, drawCount := q.drawCount }) ∧
      (frameSum s code f = f.crc → q.pCount ≤ s.cfg.maxPages →
        t = { doneState code f
            [.tx [s.cfg.ackMarker, 1], .flashUnlock,
             .erase
              (if q.pAddr = s.cfg.massEraseSentinel then .all s.cfg.appBaseAddr
               else .byPage (if s.cfg.eraseStart = .fixedBase then s.cfg.appBaseAddr else q.pAddr) q.pCount) t.err,
             .flashLock, .tx [if t.err = 0 then s.cfg.stEraseOk else s.cfg.stEraseFail]] s with
          pCount := q.pCount, pAddr := q.pAddr, pageStatus := .valid, err := t.err,
          eraseOutcome := if t.err = 0 then .succeeded else .failed,
          oracle := t.oracle, drawCount := t.drawCount, flash := t.flash, unlocked := false,
          history := .erase
              (if q.pAddr = s.cfg.massEraseSentinel then .all s.cfg.appBaseAddr
               else .byPage (if s.cfg.eraseStart = .fixedBase then s.cfg.appBaseAddr else q.pAddr) q.pCount) t.err ::
            s.history })

/-- Rule R105 for erases: any error count can be the answer where the pages named are not known to be erased: no erase
has been answered 0, or the last request has programmed the page at the base address (the form of a draw is assumption
4, what is known assumption 7). -/
def Obligations.AnyEraseAnswerIsPossible : Prop :=
  ∀ (f : Frame) (s : State) (count a0 a1 a2 a3 : Byte) (extra : List Byte) (e : Word) (ws : List Word),
    f.payload = count :: a0 :: a1 :: a2 :: a3 :: extra → s.flashCs = false →
    ((∀ r : EraseRequest, .erase r 0 ∉ s.history) ∨
      ∃ (h : Half) (ok : Bool) (older : List Event), s.history = .program
        (if word32 a0 a1 a2 a3 = s.cfg.massEraseSentinel ∨ s.cfg.eraseStart = .fixedBase then s.cfg.appBaseAddr
         else word32 a0 a1 a2 a3) h ok :: older) →
    frameSum s s.cfg.cmdFlashErase f = f.crc → count ≤ s.cfg.maxPages → s.oracle = e :: ws →
    ∃ t : State, exec (.flashErase f) s = .next t ∧ t.err = e ∧ t.oracle = ws ∧
      t.eraseOutcome = if e = 0 then .succeeded else .failed

/-- Rule R106 for the same FLASH_ERASE again (a page count of 0 included, where that it is one of already erased pages is
the model's choice: assumption 7): right after one that reported EraseSucceeded, it reports EraseSucceeded. -/
def Obligations.ErasingErasedPagesSucceeds : Prop :=
  ∀ (f : Frame) (s t : State) (count a0 a1 a2 a3 : Byte) (extra : List Byte),
    f.payload = count :: a0 :: a1 :: a2 :: a3 :: extra → s.flashCs = false → s.crcAcc = s.cfg.crcInit →
    frameSum s s.cfg.cmdFlashErase f = f.crc → count ≤ s.cfg.maxPages →
    exec (.flashErase f) s = .next t → t.eraseOutcome = .succeeded →
    ∃ u : State, exec (.flashErase f) t = .next u ∧ u.err = 0 ∧ u.eraseOutcome = .succeeded ∧
      u.evt.getLast? = some (.tx [s.cfg.stEraseOk])

/-- Rule R106, however many erase requests lie between, of whichever pages and answered as they may be: once a FLASH_ERASE
of n pages has reported EraseSucceeded, and as long as nothing is programmed, a FLASH_ERASE of m pages, 1 <= m <= n, at
the same address names only erased pages and reports EraseSucceeded; the same for the mass erase. That no erase makes a
page less erased is the model's inference (assumption 7). -/
def Obligations.ErasedPagesStayErasedAcrossErases : Prop :=
  ∀ (f g : Frame) (s t u : State) (n m a0 a1 a2 a3 : Byte) (extra others : List Byte) (between : List Event),
    f.payload = n :: a0 :: a1 :: a2 :: a3 :: extra → g.payload = m :: a0 :: a1 :: a2 :: a3 :: others →
    m ≤ n → m ≠ 0 ∨ word32 a0 a1 a2 a3 = s.cfg.massEraseSentinel →
    s.flashCs = false → frameSum s s.cfg.cmdFlashErase f = f.crc → n ≤ s.cfg.maxPages →
    exec (.flashErase f) s = .next t → t.eraseOutcome = .succeeded →
    u.cfg = t.cfg → u.flashCs = false → frameSum u u.cfg.cmdFlashErase g = g.crc →
    u.history = between ++ t.history → (∀ e ∈ between, ∃ (r : EraseRequest) (x : Word), e = .erase r x) →
    ∃ v : State, exec (.flashErase g) u = .next v ∧ v.err = 0 ∧ v.eraseOutcome = .succeeded ∧
      v.evt.getLast? = some (.tx [s.cfg.stEraseOk])

/-- Rule R156: under ERASE_START = FixedBase two FLASH_ERASE frames that differ only in a page_address that is not
the sentinel (and in their checksums) have the same trace and the same outcome. -/
def Obligations.PageAddressIsIgnoredUnderFixedBase : Prop :=
  ∀ (f g : Frame) (s : State) (count a0 a1 a2 a3 b0 b1 b2 b3 : Byte) (extra : List Byte),
    f.payload = count :: a0 :: a1 :: a2 :: a3 :: extra → g.payload = count :: b0 :: b1 :: b2 :: b3 :: extra →
    word32 a0 a1 a2 a3 ≠ s.cfg.massEraseSentinel → word32 b0 b1 b2 b3 ≠ s.cfg.massEraseSentinel →
    s.cfg.eraseStart = .fixedBase → s.flashCs = false →
    frameSum s s.cfg.cmdFlashErase f = f.crc → frameSum s s.cfg.cmdFlashErase g = g.crc →
    ∃ t u : State, exec (.flashErase f) s = .next t ∧ exec (.flashErase g) s = .next u ∧
      t.evt = u.evt ∧ t.eraseOutcome = u.eraseOutcome ∧ t.flash = u.flash ∧ t.history = u.history

/-- Rules R112 to R115: MEMORY_WRITE, for every frame. W_ADDR is the little-endian word at frame bytes 2 to 5 and
W_LEN frame byte 6 (draws where the frame has none, rule R54). Only W_ADDR is validated. The k-th program request goes
to (W_ADDR + 2k) mod 2^32 with the two frame bytes 7+2k and 8+2k (draws where the frame has none); there are W_LEN >>
1 of them unless PROGRAM_STOP_ON_FAIL ends the loop at the first one answered false; W_STATUS is Passed iff none was.
Every register not named keeps its value. -/
def Obligations.MemoryWriteProgramsInTheBracket : Prop :=
  ∀ (f : Frame) (s : State), s.flashCs = false →
    let code := s.cfg.cmdMemoryWrite
    let q := readWriteFields (f.bytes code) s
    (∀ b0 b1 b2 b3 : Byte, (f.bytes code)[2]? = some b0 → (f.bytes code)[3]? = some b1 →
      (f.bytes code)[4]? = some b2 → (f.bytes code)[5]? = some b3 → q.wAddr = word32 b0 b1 b2 b3) ∧
    (∀ b : Byte, (f.bytes code)[6]? = some b → q.wLen = b) ∧
    ∃ t : State, exec (.memoryWrite f) s = .next t ∧
      (frameSum s code f ≠ f.crc → t = nackState code f s) ∧
      (frameSum s code f = f.crc → addrValid s.cfg q.wAddr = .invalid →
        t = { doneState code f [.tx [s.cfg.ackMarker, 1], .tx [s.cfg.stAddrInvalid]] s with
          wAddr := q.wAddr, wLen := q.wLen, verdict := .invalid,
          oracle := q.oracle, drawCount := q.drawCount }) ∧
      (frameSum s code f = f.crc → addrValid s.cfg q.wAddr = .valid →
        ∃ reqs : List Event,
          t = { doneState code f
              ([.tx [s.cfg.ackMarker, 1], .flashUnlock] ++ reqs ++
                [.flashLock, .tx [if reqs.all Event.okay then s.cfg.stWriteOk else s.cfg.stWriteFail]]) s with
            wAddr := q.wAddr, wLen := q.wLen, verdict := .valid,
            wStatus := if reqs.all Event.okay then .passed else .failed,
            k := BitVec.ofNat 8
              (if s.cfg.programStopOnFail = true ∧ reqs.all Event.okay = false then reqs.length - 1
               else reqs.length),
            oracle := t.oracle, drawCount := t.drawCount, flash := t.flash, unlocked := false,
            history := reqs.reverse ++ s.history } ∧
          (∀ (k : Nat) (e : Event), reqs[k]? = some e →
            ∃ (h : Half) (ok : Bool), e = .program (q.wAddr + BitVec.ofNat 32 (2 * k)) h ok ∧
              ∀ b0 b1 : Byte, (f.bytes code)[7 + 2 * k]? = some b0 → (f.bytes code)[8 + 2 * k]? = some b1 →
                h = half16 b0 b1) ∧
          (s.cfg.programStopOnFail = false ∨ reqs.all Event.okay = true → reqs.length = q.wLen.toNat / 2) ∧
          (s.cfg.programStopOnFail = true → reqs.length ≤ q.wLen.toNat / 2 ∧
            ∀ (k : Nat) (e : Event), k + 1 < reqs.length → reqs[k]? = some e → e.okay = true))

/-- Rule R116: no FlashProgram, and no flash event at all, for a MEMORY_WRITE whose target_address is outside the
ranges of rule R102, whatever the checksum; every byte of the flash array is unchanged. -/
def Obligations.NoProgrammingOfAnInvalidAddress : Prop :=
  ∀ (f : Frame) (s t : State),
    addrValid s.cfg (readWriteFields (f.bytes s.cfg.cmdMemoryWrite) s).wAddr = .invalid →
    exec (.memoryWrite f) s = .next t →
    t.flash = s.flash ∧ t.history = s.history ∧ t.flashCs = s.flashCs ∧ t.unlocked = s.unlocked ∧
    ∃ es : List Event, t.evt = s.evt ++ es ∧ ∀ e ∈ es, e.isFlash = false

/-- The memory frame of MEMORY_WRITE: of the target address space, only the two bytes of each halfword address
(W_ADDR + 2k) mod 2^32, k < W_LEN >> 1 (rules R55 and R115), can change; no other byte does. It is said of the
controller of assumption 6, whose program requests change no other byte, and of every controller where there is no
halfword to program. -/
def Obligations.MemoryWriteChangesOnlyItsHalfwords : Prop :=
  ∀ (f : Frame) (s t : State) (x : Nat), exec (.memoryWrite f) s = .next t →
    s.controller = .stores ∨ (readWriteFields (f.bytes s.cfg.cmdMemoryWrite) s).wLen < 2 →
    (∀ k : Nat, k < halfCount (readWriteFields (f.bytes s.cfg.cmdMemoryWrite) s).wLen →
      x ≠ (halfAddr (readWriteFields (f.bytes s.cfg.cmdMemoryWrite) s).wAddr k).toNat ∧
      x ≠ (halfAddr (readWriteFields (f.bytes s.cfg.cmdMemoryWrite) s).wAddr k + 1).toNat) →
    t.flash.read x = s.flash.read x

/-- What a MEMORY_WRITE that reports Passed leaves in the flash array of the controller of assumption 6, whose program
requests answered true store their halfword (the spec itself leaves the contents open, I16): each of the
2 * (length >> 1) data bytes at its address, modulo 2^32 (rules R34, R113 and R115). -/
def Obligations.PassedMemoryWriteStoresTheData : Prop :=
  ∀ (f : Frame) (s : State) (a0 a1 a2 a3 len : Byte) (data : List Byte), s.controller = .stores →
    f.payload = a0 :: a1 :: a2 :: a3 :: len :: data → data.length = len.toNat → s.flashCs = false →
    frameSum s s.cfg.cmdMemoryWrite f = f.crc → addrValid s.cfg (word32 a0 a1 a2 a3) = .valid →
    ∃ t : State, exec (.memoryWrite f) s = .next t ∧
      (t.wStatus = .passed → ∀ j : Nat, j < 2 * (len.toNat / 2) →
        t.flash.read (((word32 a0 a1 a2 a3).toNat + j) % 2 ^ 32) = data[j]?)

/-- Rule R105 for program requests: any list of answers is possible. A MEMORY_WRITE whose data bytes are all in the
frame takes its answers in order from the draws (assumption 4), one per request. -/
def Obligations.AnyProgramAnswersArePossible : Prop :=
  ∀ (f : Frame) (s : State) (a0 a1 a2 a3 len : Byte) (data : List Byte) (answers : List Bool) (ws : List Word),
    f.payload = a0 :: a1 :: a2 :: a3 :: len :: data → data.length = len.toNat → s.flashCs = false →
    frameSum s s.cfg.cmdMemoryWrite f = f.crc → addrValid s.cfg (word32 a0 a1 a2 a3) = .valid →
    s.cfg.programStopOnFail = false → answers.length = len.toNat / 2 →
    s.oracle = answers.map (fun b => if b then 1 else 0) ++ ws →
    ∃ (t : State) (es : List Event), exec (.memoryWrite f) s = .next t ∧ t.evt = s.evt ++ es ∧ t.oracle = ws ∧
      (es.filter Event.isArrayRequest).map Event.okay = answers ∧
      t.wStatus = if answers.all id then .passed else .failed

/-! ### Errors (60_exceptions.md) -/

/-- Rules R121, R127 and R128: what each error kind sends, and that taking it does nothing else but return to
WAIT_LEN. For the four kinds reported by a status byte the ACK header has been sent before. -/
def Obligations.AbortReportsAndReturnsToWaitLen : Prop :=
  ∀ (e : ErrorKind) (s : State), abort e s = { s with
    phase := .waitLen
    evt := s.evt ++
      match e with
      | .transportFailure => if s.cfg.nackOnRxError then [.tx [s.cfg.nackMarker]] else []
      | .malformedFrame => []
      | .integrityFailure => [.tx [s.cfg.nackMarker]]
      | .unknownCommand => []
      | .pageNumberInvalid => [.tx [s.cfg.stPageInvalid]]
      | .eraseHardwareFailure => [.tx [s.cfg.stEraseFail]]
      | .addressInvalid => [.tx [s.cfg.stAddrInvalid]]
      | .programHardwareFailure => [.tx [s.cfg.stWriteFail]] }
end

