-- ==== Sys2Proof/Laws/Bytes.lean ====
section
/-! SUPPORT. Byte order: the numeric values of assembled words and halfwords, and that splitting and assembling a
word undo each other. -/

namespace Sys2Proof

theorem or_shift {x n : Nat} (y : Nat) (h : x < 2 ^ n) : x ||| y <<< n = x + 2 ^ n * y := by
  rw [Nat.or_comm, ← Nat.shiftLeft_add_eq_or_of_lt h, Nat.shiftLeft_eq]; ring

theorem word32_toNat (b0 b1 b2 b3 : Byte) :
    (word32 b0 b1 b2 b3).toNat = b0.toNat + 2 ^ 8 * b1.toNat + 2 ^ 16 * b2.toNat + 2 ^ 24 * b3.toNat := by
  have := b0.isLt; have := b1.isLt; have := b2.isLt; have := b3.isLt
  simp only [word32, BitVec.toNat_or, BitVec.toNat_shiftLeft, BitVec.truncate_eq_setWidth, BitVec.toNat_setWidth]
  rw [Nat.mod_eq_of_lt (a := b0.toNat) (by omega), Nat.mod_eq_of_lt (a := b1.toNat) (by omega), Nat.mod_eq_of_lt (a := b2.toNat) (by omega), Nat.mod_eq_of_lt (a := b3.toNat) (by omega)]
  rw [Nat.mod_eq_of_lt (a := b1.toNat <<< 8) (by rw [Nat.shiftLeft_eq]; omega), Nat.mod_eq_of_lt (a := b2.toNat <<< 16) (by rw [Nat.shiftLeft_eq]; omega), Nat.mod_eq_of_lt (a := b3.toNat <<< 24) (by rw [Nat.shiftLeft_eq]; omega)]
  rw [or_shift b1.toNat (n := 8) (by omega), or_shift b2.toNat (n := 16) (by omega), or_shift b3.toNat (n := 24) (by omega)]

theorem half16_toNat (b0 b1 : Byte) : (half16 b0 b1).toNat = b0.toNat + 2 ^ 8 * b1.toNat := by
  have := b0.isLt; have := b1.isLt
  simp only [half16, BitVec.toNat_or, BitVec.toNat_shiftLeft, BitVec.truncate_eq_setWidth, BitVec.toNat_setWidth]
  rw [Nat.mod_eq_of_lt (a := b0.toNat) (by omega), Nat.mod_eq_of_lt (a := b1.toNat) (by omega)]
  rw [Nat.mod_eq_of_lt (a := b1.toNat <<< 8) (by rw [Nat.shiftLeft_eq]; omega)]
  rw [or_shift _ (by omega)]

theorem wordBytes_eq (a : Word) : wordBytes a =
    [BitVec.ofNat 8 a.toNat, BitVec.ofNat 8 (a.toNat / 2^8), BitVec.ofNat 8 (a.toNat / 2^16), BitVec.ofNat 8 (a.toNat / 2^24)] := by
  have h : ∀ n, a.extractLsb' n 8 = BitVec.ofNat 8 (a.toNat / 2 ^ n) := by
    intro n
    apply BitVec.eq_of_toNat_eq; simp [Nat.shiftRight_eq_div_pow]
  simp only [wordBytes, h]; simp

theorem wordOfBytes_wordBytes (a : Word) : wordOfBytes (wordBytes a) = a := by
  apply BitVec.eq_of_toNat_eq
  rw [wordBytes_eq]
  simp only [wordOfBytes, List.getD_cons_zero, List.getD_cons_succ, word32_toNat, BitVec.toNat_ofNat]
  have := a.isLt
  omega

theorem wordBytes_word32 (b0 b1 b2 b3 : Byte) : wordBytes (word32 b0 b1 b2 b3) = [b0, b1, b2, b3] := by
  have := b0.isLt; have := b1.isLt; have := b2.isLt; have := b3.isLt
  rw [wordBytes_eq, word32_toNat]
  congr 1
  · apply BitVec.eq_of_toNat_eq; simp only [BitVec.toNat_ofNat]; omega
  · congr 1
    · apply BitVec.eq_of_toNat_eq; simp only [BitVec.toNat_ofNat]; omega
    · congr 1
      · apply BitVec.eq_of_toNat_eq; simp only [BitVec.toNat_ofNat]; omega
      · congr 1
        · apply BitVec.eq_of_toNat_eq; simp only [BitVec.toNat_ofNat]; omega

end Sys2Proof
end

