-- ==== Sys2Proof/Laws/Memory.lean ====
section
/-! SUPPORT. The laws of the sparse target memory: read after write, read after forget, and that every operation
keeps the canonical form. -/

namespace Sys2Proof.Machine

theorem Memory.wf_nil : Memory.wf [] := ⟨List.Pairwise.nil, by simp⟩

theorem Memory.read_write (m : Memory) (a b : Nat) (v : Byte) :
    Memory.read (Memory.write m a v) b = if a = b then some v else Memory.read m b := by
  induction m with
  | nil => simp [Memory.write, Memory.read]
  | cons c m ih =>
    obtain ⟨x, w⟩ := c
    simp only [Memory.write]
    split
    · simp [Memory.read]
    · split
      · subst_vars; simp only [Memory.read]; split <;> simp_all
      · simp only [Memory.read, ih]; split <;> simp_all

@[simp] theorem Memory.read_write_same (m : Memory) (a : Nat) (v : Byte) :
    Memory.read (Memory.write m a v) a = some v := by simp [Memory.read_write]

theorem Memory.read_write_other (m : Memory) {a b : Nat} (v : Byte) (h : a ≠ b) :
    Memory.read (Memory.write m a v) b = Memory.read m b := by simp [Memory.read_write, h]

theorem Memory.read_forget (m : Memory) (a b : Nat) :
    Memory.read (Memory.forget m a) b = if a = b then none else Memory.read m b := by
  induction m with
  | nil => simp [Memory.forget, Memory.read]
  | cons c m ih =>
    obtain ⟨x, w⟩ := c
    unfold Memory.forget at *
    by_cases hx : x = a
    · subst hx
      simp only [List.filter_cons, ne_eq, not_true, decide_false, Bool.false_eq_true, if_false, ih, Memory.read]
      split <;> simp_all
    · simp only [List.filter_cons, ne_eq, hx, not_false_eq_true, decide_true, if_true, Memory.read, ih]
      by_cases h1 : x = b
      · have h2 : ¬ a = b := fun h => hx (h1.trans h.symm)
        simp [h1, h2]
      · simp [h1]

theorem Memory.mem_write {m : Memory} {a : Nat} {v : Byte} {c : Host.Cell} (h : c ∈ Memory.write m a v) :
    c = (a, v) ∨ c ∈ m := by
  induction m with
  | nil => simpa [Memory.write] using h
  | cons d m ih =>
    simp only [Memory.write] at h
    split at h
    · simpa using h
    · split at h
      · simp only [List.mem_cons] at h ⊢; tauto
      · simp only [List.mem_cons] at h ⊢
        rcases h with h | h
        · tauto
        · have := ih h; tauto

theorem Memory.write_wf {m : Memory} (h : m.wf) {a : Nat} (ha : a < 2 ^ 32) (v : Byte) :
    (Memory.write m a v).wf := by
  refine ⟨?_, ?_⟩
  · have hp := h.1
    clear h
    induction m with
    | nil => simp [Memory.write]
    | cons d m ih =>
      obtain ⟨hd, ht⟩ := List.pairwise_cons.1 hp
      simp only [Memory.write]
      split
      · refine List.pairwise_cons.2 ⟨?_, hp⟩
        intro c hc
        rcases List.mem_cons.1 hc with rfl | hc
        · assumption
        · exact lt_trans ‹a < _› (hd c hc)
      · split
        · subst_vars; exact List.pairwise_cons.2 ⟨fun c hc => hd c hc, ht⟩
        · refine List.pairwise_cons.2 ⟨?_, ih ht⟩
          intro c hc
          rcases Memory.mem_write hc with rfl | hc
          · show d.1 < a
            have h1 : ¬ a < d.1 := ‹_›
            have h2 : ¬ a = d.1 := ‹_›
            omega
          · exact hd c hc
  · intro c hc
    rcases Memory.mem_write hc with rfl | hc
    · exact ha
    · exact h.2 c hc

theorem Memory.forget_wf {m : Memory} (h : m.wf) (a : Nat) : (Memory.forget m a).wf :=
  ⟨h.1.filter _, fun c hc => h.2 c (List.mem_of_mem_filter hc)⟩

theorem Memory.writeHalf_wf {m : Memory} (h : m.wf) (a : Word) (v : Half) : (m.writeHalf a v).wf :=
  Memory.write_wf (Memory.write_wf h a.isLt _) (a + 1).isLt _

theorem Memory.forgetHalf_wf {m : Memory} (h : m.wf) (a : Word) : (m.forgetHalf a).wf :=
  Memory.forget_wf (Memory.forget_wf h _) _

theorem Memory.read_writeHalf_other (m : Memory) (a : Word) (v : Half) {x : Nat} (h0 : a.toNat ≠ x)
    (h1 : (a + 1).toNat ≠ x) : (m.writeHalf a v).read x = m.read x := by
  rw [Memory.writeHalf, Memory.read_write_other _ _ h1, Memory.read_write_other _ _ h0]

theorem Memory.read_forgetHalf_other (m : Memory) (a : Word) {x : Nat} (h0 : a.toNat ≠ x)
    (h1 : (a + 1).toNat ≠ x) : (m.forgetHalf a).read x = m.read x := by
  rw [Memory.forgetHalf, Memory.read_forget, if_neg h1, Memory.read_forget, if_neg h0]

end Sys2Proof.Machine
end

