-- ==== Sys2Proof/Laws/State.lean ====
section
/-! SUPPORT. What each named update does to each field of State, one lemma per field, true by rfl. -/

namespace Sys2Proof.Machine

variable (s : State) (e : Event)

@[simp] theorem emit_cfg : (emit e s).cfg = s.cfg := rfl
@[simp] theorem emit_phase : (emit e s).phase = s.phase := rfl
@[simp] theorem emit_rxbuf : (emit e s).rxbuf = s.rxbuf := rfl
@[simp] theorem emit_rxlen : (emit e s).rxlen = s.rxlen := rfl
@[simp] theorem emit_rxcnt : (emit e s).rxcnt = s.rxcnt := rfl
@[simp] theorem emit_crcAcc : (emit e s).crcAcc = s.crcAcc := rfl
@[simp] theorem emit_flashCs : (emit e s).flashCs = s.flashCs := rfl
@[simp] theorem emit_cmd : (emit e s).cmd = s.cmd := rfl
@[simp] theorem emit_hostCrc : (emit e s).hostCrc = s.hostCrc := rfl
@[simp] theorem emit_verify : (emit e s).verify = s.verify := rfl
@[simp] theorem emit_pCount : (emit e s).pCount = s.pCount := rfl
@[simp] theorem emit_pAddr : (emit e s).pAddr = s.pAddr := rfl
@[simp] theorem emit_pageStatus : (emit e s).pageStatus = s.pageStatus := rfl
@[simp] theorem emit_eraseOutcome : (emit e s).eraseOutcome = s.eraseOutcome := rfl
@[simp] theorem emit_err : (emit e s).err = s.err := rfl
@[simp] theorem emit_wAddr : (emit e s).wAddr = s.wAddr := rfl
@[simp] theorem emit_wLen : (emit e s).wLen = s.wLen := rfl
@[simp] theorem emit_verdict : (emit e s).verdict = s.verdict := rfl
@[simp] theorem emit_wStatus : (emit e s).wStatus = s.wStatus := rfl
@[simp] theorem emit_k : (emit e s).k = s.k := rfl
@[simp] theorem emit_evt : (emit e s).evt = s.evt ++ [e] := rfl
@[simp] theorem emit_rxIn : (emit e s).rxIn = s.rxIn := rfl
@[simp] theorem emit_oracle : (emit e s).oracle = s.oracle := rfl
@[simp] theorem emit_drawCount : (emit e s).drawCount = s.drawCount := rfl
@[simp] theorem emit_flash : (emit e s).flash = s.flash := rfl
@[simp] theorem emit_history : (emit e s).history = s.history := rfl
@[simp] theorem emit_controller : (emit e s).controller = s.controller := rfl
@[simp] theorem emit_unlocked : (emit e s).unlocked = s.unlocked := rfl
@[simp] theorem emit_resets : (emit e s).resets = s.resets := rfl

@[simp] theorem endCycle_cfg : (endCycle s).cfg = s.cfg := rfl
@[simp] theorem endCycle_phase : (endCycle s).phase = .waitLen := rfl
@[simp] theorem endCycle_rxbuf : (endCycle s).rxbuf = s.rxbuf := rfl
@[simp] theorem endCycle_rxlen : (endCycle s).rxlen = s.rxlen := rfl
@[simp] theorem endCycle_rxcnt : (endCycle s).rxcnt = s.rxcnt := rfl
@[simp] theorem endCycle_crcAcc : (endCycle s).crcAcc = s.crcAcc := rfl
@[simp] theorem endCycle_flashCs : (endCycle s).flashCs = s.flashCs := rfl
@[simp] theorem endCycle_cmd : (endCycle s).cmd = s.cmd := rfl
@[simp] theorem endCycle_hostCrc : (endCycle s).hostCrc = s.hostCrc := rfl
@[simp] theorem endCycle_verify : (endCycle s).verify = s.verify := rfl
@[simp] theorem endCycle_pCount : (endCycle s).pCount = s.pCount := rfl
@[simp] theorem endCycle_pAddr : (endCycle s).pAddr = s.pAddr := rfl
@[simp] theorem endCycle_pageStatus : (endCycle s).pageStatus = s.pageStatus := rfl
@[simp] theorem endCycle_eraseOutcome : (endCycle s).eraseOutcome = s.eraseOutcome := rfl
@[simp] theorem endCycle_err : (endCycle s).err = s.err := rfl
@[simp] theorem endCycle_wAddr : (endCycle s).wAddr = s.wAddr := rfl
@[simp] theorem endCycle_wLen : (endCycle s).wLen = s.wLen := rfl
@[simp] theorem endCycle_verdict : (endCycle s).verdict = s.verdict := rfl
@[simp] theorem endCycle_wStatus : (endCycle s).wStatus = s.wStatus := rfl
@[simp] theorem endCycle_k : (endCycle s).k = s.k := rfl
@[simp] theorem endCycle_evt : (endCycle s).evt = s.evt := rfl
@[simp] theorem endCycle_rxIn : (endCycle s).rxIn = s.rxIn := rfl
@[simp] theorem endCycle_oracle : (endCycle s).oracle = s.oracle := rfl
@[simp] theorem endCycle_drawCount : (endCycle s).drawCount = s.drawCount := rfl
@[simp] theorem endCycle_flash : (endCycle s).flash = s.flash := rfl
@[simp] theorem endCycle_history : (endCycle s).history = s.history := rfl
@[simp] theorem endCycle_controller : (endCycle s).controller = s.controller := rfl
@[simp] theorem endCycle_unlocked : (endCycle s).unlocked = s.unlocked := rfl
@[simp] theorem endCycle_resets : (endCycle s).resets = s.resets := rfl

@[simp] theorem sendAckHeader_eq (n : Byte) : sendAckHeader n s = emit (.tx [s.cfg.ackMarker, n]) s := rfl

@[simp] theorem sendPayload_eq (p : List Byte) : sendPayload p s = emit (.tx p) s := rfl

@[simp] theorem sendNack_eq : sendNack s = emit (.tx [s.cfg.nackMarker]) s := rfl

@[simp] theorem sendAck_eq (n : Byte) (p : List Byte) :
    sendAck n p s = emit (.tx p) (emit (.tx [s.cfg.ackMarker, n]) s) := rfl

@[simp] theorem beginCommand_eq (code : Byte) : beginCommand code s = emit (.diag code) { s with cmd := code } := rfl

@[simp] theorem devIdRead_eq : devIdRead s = s.cfg.devId := rfl

@[simp] theorem andThen_next (g : State → Result) : andThen (.next s) g = g s := rfl

@[simp] theorem andThen_fault (r : Fault) (g : State → Result) : andThen (.fault r) g = .fault r := rfl

@[simp] theorem andThen_refused (r : Refusal) (g : State → Result) : andThen (.refused r) g = .refused r := rfl

end Sys2Proof.Machine
end

