-- ==== Sys2Proof/Laws/Cycle.lean ====
section
/-! SUPPORT. What a step and a reset do, in cases. -/

namespace Sys2Proof.Machine

theorem step_of_no_resets {s : State} (h : s.resets = []) : step s = advance s := by
  simp only [step, advanceOrReset, h]

theorem step_of_reset_due {s : State} {rest : List Nat} (h : s.resets = 0 :: rest) :
    step s = .next (resetBlock { s with resets := rest }) := by
  simp only [step, advanceOrReset, h]

theorem step_of_reset_later {s : State} {n : Nat} {rest : List Nat} (h : s.resets = (n + 1) :: rest) :
    step s = advance { s with resets := n :: rest } := by
  simp only [step, advanceOrReset, h]

/-- Everything a step can be. -/
theorem step_cases (s : State) :
    (s.resets = [] ∧ step s = advance s) ∨
    (∃ rest : List Nat, s.resets = 0 :: rest ∧ step s = .next (resetBlock { s with resets := rest })) ∨
    ∃ (n : Nat) (rest : List Nat), s.resets = (n + 1) :: rest ∧ step s = advance { s with resets := n :: rest } := by
  rcases h : s.resets with _ | ⟨n | n, rest⟩
  · exact .inl ⟨rfl, step_of_no_resets h⟩
  · exact .inr (.inl ⟨rest, rfl, step_of_reset_due h⟩)
  · exact .inr (.inr ⟨n, rest, rfl, step_of_reset_later h⟩)

/-- A reset between two cycles (rules R28 and R141). -/
theorem resetBlock_between {s : State} (h : s.phase = .waitLen) :
    resetBlock s = { s with crcAcc := s.cfg.crcInit, flashCs := false, evt := [] } := by
  simp only [resetBlock, h]

/-- A reset in the middle of a cycle (rule R142): the collaborators are left with any value (I23). -/
theorem resetBlock_inside {s : State} (h : s.phase ≠ .waitLen) :
    ∃ (w : Bool) (d : State), drawBit s = (w, d) ∧ resetBlock s = { s with
      phase := .waitLen, crcAcc := s.cfg.crcInit, flashCs := false, evt := []
      oracle := d.oracle, drawCount := d.drawCount, unlocked := w, flash := [], history := [] } := by
  refine ⟨(drawBit s).1, (drawBit s).2, rfl, ?_⟩
  rcases hp : s.phase with _ | _ | _
  · exact absurd hp h
  all_goals
    simp only [resetBlock, hp, cutShort, drawBit, draw]
    rcases s.oracle with _ | ⟨w, ws⟩ <;> rfl

section Fields
variable (s : State)

@[simp] theorem cutShort_cfg : (cutShort s).cfg = s.cfg := by
  simp only [cutShort, drawBit, draw]; split <;> rfl
@[simp] theorem cutShort_rxbuf : (cutShort s).rxbuf = s.rxbuf := by
  simp only [cutShort, drawBit, draw]; split <;> rfl
@[simp] theorem cutShort_rxlen : (cutShort s).rxlen = s.rxlen := by
  simp only [cutShort, drawBit, draw]; split <;> rfl
@[simp] theorem cutShort_rxcnt : (cutShort s).rxcnt = s.rxcnt := by
  simp only [cutShort, drawBit, draw]; split <;> rfl
@[simp] theorem cutShort_rxIn : (cutShort s).rxIn = s.rxIn := by
  simp only [cutShort, drawBit, draw]; split <;> rfl
@[simp] theorem cutShort_controller : (cutShort s).controller = s.controller := by
  simp only [cutShort, drawBit, draw]; split <;> rfl
@[simp] theorem cutShort_resets : (cutShort s).resets = s.resets := by
  simp only [cutShort, drawBit, draw]; split <;> rfl

@[simp] theorem resetBlock_cfg : (resetBlock s).cfg = s.cfg := by
  simp only [resetBlock]; split <;> simp
@[simp] theorem resetBlock_phase : (resetBlock s).phase = .waitLen := rfl
@[simp] theorem resetBlock_rxbuf : (resetBlock s).rxbuf = s.rxbuf := by
  simp only [resetBlock]; split <;> simp
@[simp] theorem resetBlock_rxlen : (resetBlock s).rxlen = s.rxlen := by
  simp only [resetBlock]; split <;> simp
@[simp] theorem resetBlock_rxcnt : (resetBlock s).rxcnt = s.rxcnt := by
  simp only [resetBlock]; split <;> simp
@[simp] theorem resetBlock_crcAcc : (resetBlock s).crcAcc = s.cfg.crcInit := rfl
@[simp] theorem resetBlock_flashCs : (resetBlock s).flashCs = false := rfl
@[simp] theorem resetBlock_evt : (resetBlock s).evt = [] := rfl
@[simp] theorem resetBlock_rxIn : (resetBlock s).rxIn = s.rxIn := by
  simp only [resetBlock]; split <;> simp
@[simp] theorem resetBlock_controller : (resetBlock s).controller = s.controller := by
  simp only [resetBlock]; split <;> simp
@[simp] theorem resetBlock_resets : (resetBlock s).resets = s.resets := by
  simp only [resetBlock]; split <;> simp

theorem resetBlock_flash_wf {s : State} (h : s.flash.wf) : (resetBlock s).flash.wf := by
  simp only [resetBlock]
  split
  · exact h
  · exact Memory.wf_nil
  · exact Memory.wf_nil

end Fields

end Sys2Proof.Machine
end

