-- ==== Sys2Proof/Laws/Decode.lean ====
section
/-! SUPPORT. What the decoder does: the codes select the commands, a frame is taken apart and put together again, and
every byte list has one of two shapes. -/

namespace Sys2Proof

theorem commandOf_codeOf (c : Config) (hc : c.codes.Nodup) (i : Instr) : commandOf c (codeOf c i) i.frame = some i := by
  simp only [Config.codes, List.nodup_cons, List.mem_cons, List.not_mem_nil, or_false, not_or] at hc
  obtain ⟨⟨a1, a2, a3, a4, a5⟩, ⟨b1, b2, b3, b4⟩, ⟨c1, c2, c3⟩, ⟨d1, d2⟩, e1, -⟩ := hc
  cases i <;> simp_all [commandOf, codeOf, Instr.frame, eq_comm]

theorem commandOf_some (c : Config) (code : Byte) (f : Frame) (i : Instr) (h : commandOf c code f = some i) :
    codeOf c i = code ∧ i.frame = f := by
  unfold commandOf at h
  repeat' split at h
  all_goals first | (simp only [Option.some.injEq] at h; subst h; subst_vars; exact ⟨rfl, rfl⟩) | simp at h

theorem frameOf_bytes (f : Frame) : frameOf f.len (f.payload ++ wordBytes f.crc) = f := by
  obtain ⟨w0, w1, w2, w3, hw⟩ : ∃ w0 w1 w2 w3, wordBytes f.crc = [w0, w1, w2, w3] := ⟨_, _, _, _, rfl⟩
  have h3 := wordOfBytes_wordBytes f.crc
  have hl : (f.payload ++ wordBytes f.crc).length - 4 = f.payload.length := by simp [hw]
  unfold frameOf
  rw [hl]
  simp [h3]

theorem frameOf_tail (len : Byte) (tail : List Byte) (h : 4 ≤ tail.length) (hl : len.toNat = tail.length + 1) :
   (frameOf len tail).payload ++ wordBytes (frameOf len tail).crc = tail ∧ (frameOf len tail).lengthMatches = true ∧ (frameOf len tail).len = len := by
  obtain ⟨b0, b1, b2, b3, hd⟩ : ∃ b0 b1 b2 b3, tail.drop (tail.length - 4) = [b0, b1, b2, b3] := by
    have : (tail.drop (tail.length - 4)).length = 4 := by simp; omega
    match tail.drop (tail.length - 4), this with
    | [a, b, c, d], _ => exact ⟨a, b, c, d, rfl⟩
  refine ⟨?_, ?_, rfl⟩
  · simp only [frameOf, hd]
    have : wordOfBytes [b0, b1, b2, b3] = word32 b0 b1 b2 b3 := rfl
    rw [this, wordBytes_word32, ← hd, List.take_append_drop]
  · simp only [Frame.lengthMatches, frameOf, List.length_take, beq_iff_eq]; omega

theorem decode_shape (c : Config) (bs : List Byte) : (∃ why, decode c bs = .rejected why) ∨
    ∃ len code tail rest, bs = len :: code :: (tail ++ rest) ∧ tail.length = len.toNat - 1 ∧ 5 ≤ len.toNat ∧
      decode c bs = match commandOf c code (frameOf len tail) with
        | some i => .instr i rest
        | none => .unknown code (frameOf len tail) rest := by
  unfold decode
  match bs with
  | [] => exact .inl ⟨_, rfl⟩
  | len :: body =>
    simp only
    by_cases h1 : body.length < len.toNat
    · rw [if_pos h1]; exact .inl ⟨_, rfl⟩
    · rw [if_neg h1]
      by_cases h2 : len.toNat < 5
      · rw [if_pos h2]; exact .inl ⟨_, rfl⟩
      · rw [if_neg h2]
        match body, h1 with
        | [], h1 => exact .inl ⟨_, rfl⟩
        | code :: tail, h1 =>
          refine .inr ⟨len, code, tail.take (len.toNat - 1), tail.drop (len.toNat - 1), by simp, ?_, by omega, rfl⟩
          simp at h1 ⊢; omega

end Sys2Proof
end

