-- ==== Sys2Proof/Laws/Ops.lean ====
section
/-! SUPPORT. One lemma per shared operation that says everything it can do. Draws are handled by `takeDraws`: an
operation that only draws gives, from any two states with the same draws to come, the same value and the same draws
left, and changes nothing else. -/

namespace Sys2Proof.Machine

/-- The same draws are to come. -/
def SameDraws (s d : State) : Prop := s.oracle = d.oracle ∧ s.drawCount = d.drawCount

/-- `s` with the draws to come of `d`. -/
def takeDraws (s d : State) : State := { s with oracle := d.oracle, drawCount := d.drawCount }

theorem SameDraws.rfl {s : State} : SameDraws s s := ⟨Eq.refl _, Eq.refl _⟩

theorem SameDraws.take (s d : State) : SameDraws (takeDraws s d) d := ⟨Eq.refl _, Eq.refl _⟩

theorem draw_congr {s d : State} (h : SameDraws s d) : draw s = ((draw d).1, takeDraws s (draw d).2) := by
  obtain ⟨ho, hc⟩ := h
  unfold draw
  rw [ho, hc]
  cases hd : d.oracle with
  | nil =>
    have hs : s.oracle = [] := ho.trans hd
    simp [takeDraws, ← hs]
  | cons w ws => simp [takeDraws, ← hc]

theorem drawByte_congr {s d : State} (h : SameDraws s d) :
    drawByte s = ((drawByte d).1, takeDraws s (drawByte d).2) := by
  simp [drawByte, draw_congr h]

theorem drawBit_congr {s d : State} (h : SameDraws s d) :
    drawBit s = ((drawBit d).1, takeDraws s (drawBit d).2) := by
  simp [drawBit, draw_congr h]

theorem frameByte_congr (bs : List Byte) (i : Nat) {s d : State} (h : SameDraws s d) :
    frameByte bs i s = ((frameByte bs i d).1, takeDraws s (frameByte bs i d).2) := by
  unfold frameByte
  split
  · obtain ⟨ho, hc⟩ := h
    simp [takeDraws, ← ho, ← hc]
  · exact drawByte_congr h

theorem frameByte_inside {bs : List Byte} {i : Nat} {b : Byte} (h : bs[i]? = some b) (s : State) :
    frameByte bs i s = (b, s) := by
  simp [frameByte, h]

theorem frameByte_beyond {bs : List Byte} {i : Nat} (h : bs[i]? = none) (s : State) :
    frameByte bs i s = drawByte s := by
  simp [frameByte, h]

theorem frameHalf_congr (bs : List Byte) (i : Nat) {s d : State} (h : SameDraws s d) :
    frameHalf bs i s = ((frameHalf bs i d).1, takeDraws s (frameHalf bs i d).2) := by
  unfold frameHalf
  dsimp only
  rw [frameByte_congr bs i h]
  dsimp only
  rw [frameByte_congr bs (i + 1) (SameDraws.take s (frameByte bs i d).2)]
  rfl

theorem frameWord_congr (bs : List Byte) (i : Nat) {s d : State} (h : SameDraws s d) :
    frameWord bs i s = ((frameWord bs i d).1, takeDraws s (frameWord bs i d).2) := by
  unfold frameWord
  dsimp only
  rw [frameByte_congr bs i h]
  dsimp only
  rw [frameByte_congr bs (i + 1) (SameDraws.take s (frameByte bs i d).2)]
  dsimp only
  rw [frameByte_congr bs (i + 2) (SameDraws.take _ (frameByte bs (i + 1) (frameByte bs i d).2).2)]
  dsimp only
  rw [frameByte_congr bs (i + 3)
    (SameDraws.take _ (frameByte bs (i + 2) (frameByte bs (i + 1) (frameByte bs i d).2).2).2)]
  rfl

/-- What reading FLASH_ERASE's fields does: P_COUNT, P_ADDR and the draws, the same from any state with the same
draws to come. -/
theorem readEraseFields_congr (bs : List Byte) {s d : State} (h : SameDraws s d) :
    readEraseFields bs s = { s with
      pCount := (readEraseFields bs d).pCount, pAddr := (readEraseFields bs d).pAddr
      oracle := (readEraseFields bs d).oracle, drawCount := (readEraseFields bs d).drawCount } := by
  unfold readEraseFields
  dsimp only
  rw [frameByte_congr bs 2 h]
  dsimp only
  rw [frameWord_congr bs 3 (SameDraws.take s (frameByte bs 2 d).2)]
  rfl

/-- What reading MEMORY_WRITE's fields does: W_ADDR, W_LEN and the draws. -/
theorem readWriteFields_congr (bs : List Byte) {s d : State} (h : SameDraws s d) :
    readWriteFields bs s = { s with
      wAddr := (readWriteFields bs d).wAddr, wLen := (readWriteFields bs d).wLen
      oracle := (readWriteFields bs d).oracle, drawCount := (readWriteFields bs d).drawCount } := by
  unfold readWriteFields
  dsimp only
  rw [frameWord_congr bs 2 h]
  dsimp only
  rw [frameByte_congr bs 6 (SameDraws.take s (frameWord bs 2 d).2)]
  rfl

/-- The state in which a verified command's handler starts (rules R73, R74 and R76). -/
def verifiedState (code : Byte) (f : Frame) (s : State) : State :=
  { s with
    cmd := code, hostCrc := f.crc, verify := .passed, crcAcc := s.cfg.crcInit
    evt := s.evt ++ [.diag code] }

/-- The gate of rule R78, in two cases. -/
theorem verified_eq (code : Byte) (f : Frame) (s : State) (handler : State → Result) :
    verified code f s handler =
      if frameSum s code f = f.crc then handler (verifiedState code f s) else .next (nackState code f s) := by
  unfold verified verifyFrame verification frameSum
  by_cases h : crcFold s.cfg.crcUnit s.crcAcc (f.covered code) = f.crc
  · simp [h, verifiedState, emit]
  · simp [h, nackState, emit, abort, report, endCycle]

/-- The bracket of rule R118 around requests that complete and leave FLASH_CS set. -/
theorem flashBracket_eq (requests : State → Result) {s t : State} (h : s.flashCs = false)
    (hr : requests (emit .flashUnlock { s with flashCs := true, unlocked := true }) = .next t)
    (ht : t.flashCs = true) :
    flashBracket requests s = .next (emit .flashLock { t with flashCs := false, unlocked := false }) := by
  simp [flashBracket, flashUnlock, h, hr, flashLock, ht]

/-- What an erase request does inside the bracket: it completes with the answer in ERR. -/
theorem eraseRequests_spec (s : State) (h : s.flashCs = true) :
    ∃ t : State, eraseRequests s = .next t ∧
      t = { s with
        err := t.err, oracle := t.oracle, drawCount := t.drawCount, flash := []
        history := .erase (eraseRequestOf s.cfg s.pCount s.pAddr) t.err :: s.history
        evt := s.evt ++ [.erase (eraseRequestOf s.cfg s.pCount s.pAddr) t.err] } := by
  unfold eraseRequests eraseAnswer
  dsimp only
  split
  · exact ⟨_, if_pos h, by simp [emit]⟩
  · rw [draw_congr SameDraws.rfl]
    exact ⟨_, if_pos h, by simp [emit, takeDraws]⟩

/-- The erase in its bracket (rules R108 and R118): it completes with FLASH_CS false again. -/
theorem eraseBracket_spec (s : State) (h : s.flashCs = false) :
    ∃ t : State, flashBracket eraseRequests s = .next t ∧
      t = { s with
        err := t.err, oracle := t.oracle, drawCount := t.drawCount, flash := [], unlocked := false
        history := .erase (eraseRequestOf s.cfg s.pCount s.pAddr) t.err :: s.history
        evt := s.evt ++ [.flashUnlock, .erase (eraseRequestOf s.cfg s.pCount s.pAddr) t.err, .flashLock] } := by
  obtain ⟨u, hu, he⟩ := eraseRequests_spec (emit .flashUnlock { s with flashCs := true, unlocked := true }) rfl
  refine ⟨_, flashBracket_eq eraseRequests h hu (by rw [he]; rfl), ?_⟩
  rw [he]
  simp [emit, ← h]

end Sys2Proof.Machine
end

