-- ==== Sys2Proof/Laws/Loop.lean ====
section
/-! SUPPORT. What the programming loop of MEMORY_WRITE does (rules R112 to R115), by induction on the halfwords left. -/

namespace Sys2Proof.Machine

/-- How far K has come when the loop ends with the requests `reqs` issued: a failed halfword that ended the loop is
not counted (rule R112). -/
def halvesDone (stop : Bool) (reqs : List Event) : Nat :=
  if stop = true ∧ reqs.all Event.okay = false then reqs.length - 1 else reqs.length

theorem halvesDone_cons (stop : Bool) (a : Word) (h : Half) (ok : Bool) (reqs : List Event)
    (hgo : (stop && !ok) = false) : halvesDone stop (.program a h ok :: reqs) = halvesDone stop reqs + 1 := by
  unfold halvesDone
  cases stop
  · simp
  · have hok : ok = true := by simpa using hgo
    subst hok
    have hall : (Event.program a h true :: reqs).all Event.okay = reqs.all Event.okay := by simp [Event.okay]
    rw [hall]
    by_cases ha : reqs.all Event.okay = false
    · have hpos : reqs ≠ [] := by rintro rfl; simp at ha
      have := List.length_pos_of_ne_nil hpos
      simp only [ha, and_self, if_true, List.length_cons]
      omega
    · simp [ha]

/-- What one pass of the loop does to the state, for the halfword, the answer it got and the counter it leaves. -/
def afterProgram (a : Word) (h : Half) (ok : Bool) (k : Byte) (s : State) : State :=
  { s with
    k := k
    evt := s.evt ++ [.program a h ok]
    wStatus := if ok then s.wStatus else .failed
    flash := arrayAfterProgram s.controller a h ok s.flash
    history := .program a h ok :: s.history }

section Fields
variable (a : Word) (h : Half) (ok : Bool) (k : Byte) (s d : State)

@[simp] theorem afterProgram_cfg : (afterProgram a h ok k (takeDraws s d)).cfg = s.cfg := rfl
@[simp] theorem afterProgram_flashCs : (afterProgram a h ok k (takeDraws s d)).flashCs = s.flashCs := rfl
@[simp] theorem afterProgram_controller :
    (afterProgram a h ok k (takeDraws s d)).controller = s.controller := rfl
@[simp] theorem afterProgram_history :
    (afterProgram a h ok k (takeDraws s d)).history = .program a h ok :: s.history := rfl
@[simp] theorem afterProgram_wAddr : (afterProgram a h ok k (takeDraws s d)).wAddr = s.wAddr := rfl
@[simp] theorem afterProgram_k : (afterProgram a h ok k (takeDraws s d)).k = k := rfl
@[simp] theorem afterProgram_evt :
    (afterProgram a h ok k (takeDraws s d)).evt = s.evt ++ [.program a h ok] := rfl
@[simp] theorem afterProgram_wStatus :
    (afterProgram a h ok k (takeDraws s d)).wStatus = if ok then s.wStatus else .failed := rfl

end Fields

/-- One pass of the loop: the halfword is read, the request is issued, and the loop stops or goes on. -/
theorem programLoop_succ (bs : List Byte) (n : Nat) (s : State) (hcs : s.flashCs = true) :
    ∃ (h : Half) (ok : Bool) (d : State),
      (∀ b0 b1 : Byte, bs[7 + 2 * s.k.toNat]? = some b0 → bs[8 + 2 * s.k.toNat]? = some b1 →
        h = half16 b0 b1 ∧ ok = (drawBit s).1 ∧ d = (drawBit s).2) ∧
      programLoop bs (n + 1) s =
        if s.cfg.programStopOnFail && !ok then .next (afterProgram (halfAddr s.wAddr s.k.toNat) h ok s.k (takeDraws s d))
        else programLoop bs n
          (afterProgram (halfAddr s.wAddr s.k.toNat) h ok (s.k + 1) (takeDraws s d)) := by
  refine ⟨(dataHalf bs s.k.toNat s).1, (programAnswer (dataHalf bs s.k.toNat s).2).1,
    (programAnswer (dataHalf bs s.k.toNat s).2).2, ?_, ?_⟩
  · intro b0 b1 h0 h1
    have h1' : bs[7 + 2 * s.k.toNat + 1]? = some b1 := by rw [← h1]; congr 1; omega
    have hd : dataHalf bs s.k.toNat s = (half16 b0 b1, s) := by
      simp [dataHalf, frameHalf, frameByte_inside h0, frameByte_inside h1']
    simp [hd, programAnswer]
  · rw [programLoop]
    dsimp only
    unfold dataHalf programAnswer
    rw [frameHalf_congr bs (7 + 2 * s.k.toNat) (SameDraws.rfl (s := s))]
    dsimp only
    rw [drawBit_congr (SameDraws.take s (frameHalf bs (7 + 2 * s.k.toNat) s).2)]
    simp only [flashProgram, takeDraws, hcs, if_true, andThen_next, emit, afterProgram]

theorem one_add_ofNat (m : Nat) : (1 : Byte) + BitVec.ofNat 8 m = BitVec.ofNat 8 (m + 1) := by
  rw [BitVec.ofNat_add, BitVec.add_comm]
  rfl

theorem halfAddr_toNat (w : Word) (k : Nat) : (halfAddr w k).toNat = (w.toNat + 2 * k) % 2 ^ 32 := by
  simp only [halfAddr, BitVec.toNat_add, BitVec.toNat_ofNat]
  omega

theorem halfAddr_succ_toNat (w : Word) (k : Nat) :
    (halfAddr w k + 1).toNat = (w.toNat + 2 * k + 1) % 2 ^ 32 := by
  rw [BitVec.toNat_add, halfAddr_toNat]
  simp

theorem afterProgram_read_other (a : Word) (h : Half) (ok : Bool) (k : Byte) {s : State} {x : Nat}
    (hc : s.controller = .stores) (h0 : x ≠ a.toNat) (h1 : x ≠ (a + 1).toNat) :
    (afterProgram a h ok k s).flash.read x = s.flash.read x := by
  simp only [afterProgram, arrayAfterProgram, hc]
  split
  · exact Memory.read_writeHalf_other _ _ _ h0.symm h1.symm
  · exact Memory.read_forgetHalf_other _ _ h0.symm h1.symm

theorem afterProgram_wf (a : Word) (h : Half) (ok : Bool) (k : Byte) {s : State} (hs : s.flash.wf) :
    (afterProgram a h ok k s).flash.wf := by
  simp only [afterProgram, arrayAfterProgram]
  cases s.controller
  · exact Memory.wf_nil
  · dsimp only
    split
    · exact Memory.writeHalf_wf hs _ _
    · exact Memory.forgetHalf_wf hs _

/-- What the loop does in the bracket: it always completes; its requests, their order, their number, the flags and
the counter. -/
theorem programLoop_spec (bs : List Byte) (n : Nat) : ∀ s : State, s.flashCs = true → s.k.toNat + n ≤ 127 →
    ∃ (t : State) (reqs : List Event), programLoop bs n s = .next t ∧
      t = { s with
        evt := s.evt ++ reqs
        wStatus := if reqs.all Event.okay then s.wStatus else .failed
        k := s.k + BitVec.ofNat 8 (halvesDone s.cfg.programStopOnFail reqs)
        history := reqs.reverse ++ s.history
        oracle := t.oracle, drawCount := t.drawCount, flash := t.flash } ∧
      (∀ (j : Nat) (e : Event), reqs[j]? = some e →
        ∃ (h : Half) (ok : Bool), e = .program (halfAddr s.wAddr (s.k.toNat + j)) h ok ∧
          ∀ b0 b1 : Byte, bs[7 + 2 * (s.k.toNat + j)]? = some b0 → bs[8 + 2 * (s.k.toNat + j)]? = some b1 →
            h = half16 b0 b1) ∧
      (s.cfg.programStopOnFail = false ∨ reqs.all Event.okay = true → reqs.length = n) ∧
      reqs.length ≤ n ∧
      (s.cfg.programStopOnFail = true →
        ∀ (j : Nat) (e : Event), j + 1 < reqs.length → reqs[j]? = some e → e.okay = true) ∧
      (reqs = [] → t = s) := by
  induction n with
  | zero => exact fun s _ _ => ⟨s, [], rfl, by simp [halvesDone], by simp, by simp, by simp, by simp, fun _ => rfl⟩
  | succ n ih =>
    intro s hcs hk
    obtain ⟨h, ok, d, hdata, hloop⟩ := programLoop_succ bs n s hcs
    rw [hloop]
    have hpart : ∀ b0 b1 : Byte, bs[7 + 2 * s.k.toNat]? = some b0 → bs[8 + 2 * s.k.toNat]? = some b1 →
        h = half16 b0 b1 := fun b0 b1 h0 h1 => (hdata b0 b1 h0 h1).1
    by_cases hstop : s.cfg.programStopOnFail = true ∧ ok = false
    · obtain ⟨hs, rfl⟩ := hstop
      refine ⟨_, [.program (halfAddr s.wAddr s.k.toNat) h false], if_pos (by simp [hs]), ?_, ?_, ?_, ?_, ?_, ?_⟩
      · simp [afterProgram, takeDraws, Event.okay, halvesDone, hs]
      · intro j e hj
        rcases j with _ | j
        · simp only [List.getElem?_cons_zero, Option.some.injEq] at hj
          exact ⟨h, false, hj.symm, by simpa using hpart⟩
        · simp at hj
      · simp [hs, Event.okay]
      · simp
      · simp
      · simp
    · have hgo : (s.cfg.programStopOnFail && !ok) = false := by
        rcases Bool.eq_false_or_eq_true s.cfg.programStopOnFail with h1 | h1 <;> simp_all
      rw [hgo]
      have hk1 : (s.k + 1).toNat = s.k.toNat + 1 := by
        rw [BitVec.toNat_add]
        have : s.k.toNat + 1 < 2 ^ 8 := by omega
        simpa using this
      obtain ⟨t, reqs, hrun, ht, helem, hlen, hle, hokay, hnil⟩ :=
        ih (afterProgram (halfAddr s.wAddr s.k.toNat) h ok (s.k + 1) (takeDraws s d)) hcs
          (by rw [afterProgram_k, hk1]; omega)
      simp only [afterProgram_cfg, afterProgram_wAddr, afterProgram_k, afterProgram_evt, afterProgram_wStatus,
        afterProgram_history]
        at ht helem hlen hokay
      refine ⟨t, .program (halfAddr s.wAddr s.k.toNat) h ok :: reqs, by simpa using hrun, ?_, ?_, ?_, ?_, ?_, ?_⟩
      · rw [ht]
        simp only [List.append_assoc, List.singleton_append, List.reverse_cons, List.all_cons, Event.okay]
        show _ = State.mk _ _ _ _ _ _ _ _ _ _ _ _ _ _ _ _ _ _ _ _ _ _ _ _ _ _ _ _ _
        congr 1
        · cases ok <;> simp
        · rw [halvesDone_cons _ _ _ _ _ hgo, BitVec.add_assoc, one_add_ofNat]
      · intro j e hj
        rcases j with _ | j
        · simp only [List.getElem?_cons_zero, Option.some.injEq] at hj
          exact ⟨h, ok, hj.symm, by simpa using hpart⟩
        · simp only [List.getElem?_cons_succ] at hj
          obtain ⟨h', ok', he, hb⟩ := helem j e hj
          have hadd : (s.k + 1).toNat + j = s.k.toNat + (j + 1) := by rw [hk1]; omega
          simp only [hadd] at he hb
          exact ⟨h', ok', he, hb⟩
      · intro hor
        rw [List.length_cons, hlen]
        rcases hor with h1 | h1
        · exact Or.inl h1
        · right
          simp only [List.all_cons, Bool.and_eq_true] at h1
          exact h1.2
      · rw [List.length_cons]; omega
      · intro hs j e hj hje
        rcases j with _ | j
        · simp only [List.getElem?_cons_zero, Option.some.injEq] at hje
          have hok : ok = true := by simpa [hs] using hgo
          rw [← hje]; simp [Event.okay, hok]
        · simp only [List.getElem?_cons_succ] at hje
          exact hokay hs j e (by simpa using hj) hje
      · simp

/-- Under the spec's own reading of the array (I16) nothing of it is known once a request has been issued. -/
theorem programLoop_anyContents (bs : List Byte) (n : Nat) : ∀ s t : State, s.flashCs = true →
    s.controller = .anyContents → programLoop bs n s = .next t → t = s ∨ t.flash = [] := by
  induction n with
  | zero =>
    intro s t _ _ h
    simp only [programLoop, Host.Outcome.next.injEq] at h
    exact Or.inl h.symm
  | succ n ih =>
    intro s t hcs hc hrun
    obtain ⟨h, ok, d, -, hloop⟩ := programLoop_succ bs n s hcs
    have hnil : ∀ k : Byte, (afterProgram (halfAddr s.wAddr s.k.toNat) h ok k (takeDraws s d)).flash = [] := by
      intro k
      simp [afterProgram, arrayAfterProgram, takeDraws, hc]
    rw [hloop] at hrun
    split at hrun
    · simp only [Host.Outcome.next.injEq] at hrun
      exact Or.inr (by rw [← hrun]; exact hnil _)
    · right
      rcases ih _ t (by exact hcs) (by exact hc) hrun with h1 | h1
      · rw [h1]; exact hnil _
      · exact h1

/-- What the loop leaves in the flash array: the canonical form is kept, and, of the controller of assumption 6, only
the halfwords it is given can change. -/
theorem programLoop_flash (bs : List Byte) (n : Nat) : ∀ s t : State, s.flashCs = true → s.k.toNat + n ≤ 127 →
    programLoop bs n s = .next t →
    (s.flash.wf → t.flash.wf) ∧
    ∀ x : Nat, s.controller = .stores → (∀ j : Nat, j < n → x ≠ (halfAddr s.wAddr (s.k.toNat + j)).toNat ∧
      x ≠ (halfAddr s.wAddr (s.k.toNat + j) + 1).toNat) → t.flash.read x = s.flash.read x := by
  induction n with
  | zero =>
    intro s t _ _ h
    simp only [programLoop, Host.Outcome.next.injEq] at h
    subst h
    exact ⟨id, fun _ _ _ => rfl⟩
  | succ n ih =>
    intro s t hcs hk hrun
    obtain ⟨h, ok, d, -, hloop⟩ := programLoop_succ bs n s hcs
    rw [hloop] at hrun
    have hk1 : (s.k + 1).toNat = s.k.toNat + 1 := by
      rw [BitVec.toNat_add]
      have : s.k.toNat + 1 < 2 ^ 8 := by omega
      simpa using this
    have hfirst : ∀ (k : Byte) (x : Nat), s.controller = .stores → (∀ j : Nat, j < n + 1 → x ≠ (halfAddr s.wAddr (s.k.toNat + j)).toNat ∧
        x ≠ (halfAddr s.wAddr (s.k.toNat + j) + 1).toNat) →
        (afterProgram (halfAddr s.wAddr s.k.toNat) h ok k (takeDraws s d)).flash.read x = s.flash.read x := by
      intro k x hc hx
      have := hx 0 (by omega)
      exact afterProgram_read_other _ _ _ _ (s := takeDraws s d) hc (by simpa using this.1) (by simpa using this.2)
    split at hrun
    · simp only [Host.Outcome.next.injEq] at hrun
      subst hrun
      exact ⟨fun hw => afterProgram_wf _ _ _ _ (s := takeDraws s d) hw, hfirst _⟩
    · obtain ⟨hw, hr⟩ :=
        ih (afterProgram (halfAddr s.wAddr s.k.toNat) h ok (s.k + 1) (takeDraws s d)) t hcs
          (by rw [afterProgram_k, hk1]; omega) hrun
      refine ⟨fun h0 => hw (afterProgram_wf _ _ _ _ (s := takeDraws s d) h0), fun x hc hx => ?_⟩
      rw [← hfirst (s.k + 1) x hc hx]
      refine hr x hc fun j hj => ?_
      have hadd : (s.k + 1).toNat + j = s.k.toNat + (j + 1) := by rw [hk1]; omega
      rw [afterProgram_k, hadd]
      exact hx (j + 1) (by omega)

theorem half16_low (d0 d1 : Byte) : (half16 d0 d1).extractLsb' 0 8 = d0 := by
  apply BitVec.eq_of_toNat_eq
  simp only [BitVec.extractLsb'_toNat, half16_toNat, Nat.shiftRight_zero]
  have := d0.isLt; omega

theorem half16_high (d0 d1 : Byte) : (half16 d0 d1).extractLsb' 8 8 = d1 := by
  apply BitVec.eq_of_toNat_eq
  simp only [BitVec.extractLsb'_toNat, half16_toNat, Nat.shiftRight_eq_div_pow]
  have := d0.isLt; have := d1.isLt; omega

theorem k_succ_toNat (s : State) (n : Nat) (hk : s.k.toNat + (n+1) ≤ 127) : (s.k + 1).toNat = s.k.toNat + 1 := by
  rw [BitVec.toNat_add]
  have : s.k.toNat + 1 < 2 ^ 8 := by omega
  simpa using this

/-- What a loop that ends with W_STATUS = Passed leaves in the array of the controller of assumption 6: each halfword's
two data bytes (rules R34 and R115). -/
theorem programLoop_store (bs : List Byte) (n : Nat) : ∀ s t : State, s.flashCs = true → s.k.toNat + n ≤ 127 →
    s.controller = .stores → programLoop bs n s = .next t → t.wStatus = .passed →
    s.wStatus = .passed ∧
    ∀ j : Nat, j < n → ∀ d0 d1 : Byte, bs[7 + 2 * (s.k.toNat + j)]? = some d0 → bs[8 + 2 * (s.k.toNat + j)]? = some d1 →
      t.flash.read (halfAddr s.wAddr (s.k.toNat + j)).toNat = some d0 ∧ t.flash.read (halfAddr s.wAddr (s.k.toNat + j) + 1).toNat = some d1 := by
  induction n with
  | zero =>
    intro s t _ _ _ h hp
    simp only [programLoop, Host.Outcome.next.injEq] at h; subst h
    exact ⟨hp, fun j hj => absurd hj (by omega)⟩
  | succ n ih =>
    intro s t hcs hk hc hrun hp
    obtain ⟨h, ok, d, hdata, hloop⟩ := programLoop_succ bs n s hcs
    rw [hloop] at hrun
    have hk1 := k_succ_toNat s n hk
    split at hrun
    · rename_i hb
      have hok : ok = false := by rcases ok with _ | _ <;> simp_all
      injection hrun with hrun; subst hrun
      simp [hok] at hp
    · obtain ⟨hw, hst⟩ := ih _ t (by exact hcs) (by rw [afterProgram_k, hk1]; omega) (by exact hc) hrun hp
      simp only [afterProgram_wStatus] at hw
      have hok : ok = true := by
        by_contra hne; rw [if_neg hne] at hw; simp at hw
      subst hok
      refine ⟨by simpa using hw, ?_⟩
      intro j hj d0 d1 h0 h1
      rcases j with _ | j
      · simp only [Nat.add_zero] at h0 h1 ⊢
        obtain ⟨rfl, -, -⟩ := hdata d0 d1 h0 h1
        have hfr := (programLoop_flash bs n _ t (by exact hcs) (by rw [afterProgram_k, hk1]; omega) hrun).2
        simp only [afterProgram_wAddr, afterProgram_k, hk1] at hfr
        have hw1 := s.wAddr.isLt
        rw [hfr _ hc, hfr _ hc]
        · have hs : (afterProgram (halfAddr s.wAddr s.k.toNat) (half16 d0 d1) true (s.k + 1) (takeDraws s d)).flash =
              s.flash.writeHalf (halfAddr s.wAddr s.k.toNat) (half16 d0 d1) := by
            simp only [afterProgram, arrayAfterProgram, takeDraws, hc, if_true]
          rw [hs, Memory.writeHalf, half16_low, half16_high]
          refine ⟨?_, by simp⟩
          rw [Memory.read_write_other, Memory.read_write_same]
          rw [halfAddr_succ_toNat, halfAddr_toNat]; omega
        · intro j hj'
          simp only [halfAddr_succ_toNat, halfAddr_toNat]; omega
        · intro j hj'
          simp only [halfAddr_succ_toNat, halfAddr_toNat]; omega
      · have e : s.k.toNat + (j + 1) = (s.k + 1).toNat + j := by rw [hk1]; omega
        rw [e] at h0 h1 ⊢
        exact hst j (by omega) d0 d1 h0 h1

/-- A loop whose data bytes are all in the frame takes its answers in order from the answers listed (rule R105). -/
theorem programLoop_answers (bs : List Byte) (ws : List Word) (n : Nat) : ∀ (s : State) (answers : List Bool), s.flashCs = true → s.k.toNat + n ≤ 127 →
    s.cfg.programStopOnFail = false → answers.length = n → s.oracle = answers.map (fun b => if b then 1 else 0) ++ ws →
    (∀ j : Nat, j < n → ∃ b0 b1 : Byte, bs[7 + 2 * (s.k.toNat + j)]? = some b0 ∧ bs[8 + 2 * (s.k.toNat + j)]? = some b1) →
    ∃ (t : State) (reqs : List Event), programLoop bs n s = .next t ∧ t.evt = s.evt ++ reqs ∧ t.oracle = ws ∧
      (∀ e ∈ reqs, e.isArrayRequest = true) ∧ reqs.map Event.okay = answers ∧ t.wStatus = (if answers.all id then s.wStatus else .failed) := by
  induction n with
  | zero =>
    intro s answers _ _ _ ha ho _
    obtain rfl : answers = [] := List.length_eq_zero_iff.1 ha
    exact ⟨s, [], rfl, by simp, by simpa using ho, by simp, rfl, by simp⟩
  | succ n ih =>
    intro s answers hcs hk hst ha ho hb
    obtain ⟨a, answers, rfl⟩ : ∃ a as, answers = a :: as := by
      match answers, ha with
      | a :: as, _ => exact ⟨a, as, rfl⟩
    obtain ⟨h, ok, d, hdata, hloop⟩ := programLoop_succ bs n s hcs
    obtain ⟨b0, b1, hb0, hb1⟩ := hb 0 (by omega)
    obtain ⟨-, hok, hd⟩ := hdata b0 b1 (by simpa using hb0) (by simpa using hb1)
    have hk1 := k_succ_toNat s n hk
    simp only [List.map_cons, List.cons_append] at ho
    have hok' : ok = a := by
      rw [hok]; simp only [drawBit, draw, ho]; cases a <;> decide
    have hd' : d = { s with oracle := answers.map (fun b => if b then 1 else 0) ++ ws } := by
      rw [hd]; simp only [drawBit, draw, ho]
    subst hok'
    rw [hloop, hst]
    simp only [Bool.false_and, Bool.false_eq_true, if_false]
    obtain ⟨t, reqs, e1, e2, e3, e4, e5, e6⟩ := ih (afterProgram (halfAddr s.wAddr s.k.toNat) h ok (s.k + 1) (takeDraws s d)) answers hcs (by rw [afterProgram_k, hk1]; omega) hst (by simpa using ha) (by rw [hd']; rfl)
      (by
        intro j hj
        have := hb (j+1) (by omega)
        rw [afterProgram_k, hk1]
        rwa [show s.k.toNat + 1 + j = s.k.toNat + (j + 1) by omega])
    refine ⟨t, .program (halfAddr s.wAddr s.k.toNat) h ok :: reqs, e1, by rw [e2]; simp, e3, ?_, ?_, ?_⟩
    · simpa [Event.isArrayRequest] using e4
    · simp [Event.okay, e5]
    · rw [e6]; simp; cases ok <;> simp

/-- The loop in its bracket (rules R112 and R118): it completes with FLASH_CS false again. -/
theorem programBracket_spec (bs : List Byte) (s : State) (hs : s.flashCs = false) :
    ∃ (t u : State) (reqs : List Event),
      flashBracket (fun s4 => programLoop bs (halfCount s4.wLen) { s4 with wStatus := .passed, k := 0 }) s = .next t ∧
      programLoop bs (halfCount s.wLen)
        { s with evt := s.evt ++ [.flashUnlock], flashCs := true, unlocked := true, wStatus := .passed, k := 0 } = .next u ∧
      t.flash = u.flash ∧
      t = { s with
        evt := s.evt ++ ([.flashUnlock] ++ reqs ++ [.flashLock])
        wStatus := if reqs.all Event.okay then .passed else .failed
        k := BitVec.ofNat 8 (halvesDone s.cfg.programStopOnFail reqs)
        history := reqs.reverse ++ s.history, unlocked := false
        oracle := t.oracle, drawCount := t.drawCount, flash := t.flash } ∧
      (∀ (j : Nat) (e : Event), reqs[j]? = some e →
        ∃ (h : Half) (ok : Bool), e = .program (halfAddr s.wAddr j) h ok ∧
          ∀ b0 b1 : Byte, bs[7 + 2 * j]? = some b0 → bs[8 + 2 * j]? = some b1 → h = half16 b0 b1) ∧
      (s.cfg.programStopOnFail = false ∨ reqs.all Event.okay = true → reqs.length = halfCount s.wLen) ∧
      reqs.length ≤ halfCount s.wLen ∧
      (s.cfg.programStopOnFail = true →
        ∀ (j : Nat) (e : Event), j + 1 < reqs.length → reqs[j]? = some e → e.okay = true) ∧
      (reqs = [] → t.flash = s.flash) := by
  have hn : halfCount s.wLen ≤ 127 := by
    simp only [halfCount, BitVec.toNat_ushiftRight]
    have := s.wLen.isLt
    omega
  obtain ⟨u, reqs, hu, he, helem, hlen, hle, hok, hnil⟩ := programLoop_spec bs (halfCount s.wLen)
    { s with evt := s.evt ++ [.flashUnlock], flashCs := true, unlocked := true, wStatus := .passed, k := 0 } rfl (by simpa using hn)
  refine ⟨_, u, reqs, flashBracket_eq _ hs hu (by rw [he]), hu, rfl, ?_, ?_, hlen, hle, hok, ?_⟩
  · rw [he]
    simp [emit, ← hs]
  · simpa using helem
  · intro h
    rw [hnil h]
    rfl

end Sys2Proof.Machine
end

