-- ==== Sys2Proof/Laws/Flash.lean ====
section
/-! SUPPORT. What FLASH_ERASE and MEMORY_WRITE do once verified, in closed form up to the answers drawn. -/

namespace Sys2Proof.Machine

/-- FLASH_ERASE with too many pages (rule R108), in any state: PageNumberInvalid. -/
theorem execFlashErase_invalid (f : Frame) (s : State) (hv : frameSum s s.cfg.cmdFlashErase f = f.crc)
    (hc : s.cfg.maxPages < (readEraseFields (f.bytes s.cfg.cmdFlashErase) s).pCount) :
    execFlashErase f s = .next
      { doneState s.cfg.cmdFlashErase f [.tx [s.cfg.ackMarker, 1], .tx [s.cfg.stPageInvalid]] s with
        pCount := (readEraseFields (f.bytes s.cfg.cmdFlashErase) s).pCount
        pAddr := (readEraseFields (f.bytes s.cfg.cmdFlashErase) s).pAddr
        pageStatus := .invalid
        oracle := (readEraseFields (f.bytes s.cfg.cmdFlashErase) s).oracle
        drawCount := (readEraseFields (f.bytes s.cfg.cmdFlashErase) s).drawCount } := by
  simp only [execFlashErase, verified_eq, hv, if_true]
  rw [readEraseFields_congr (f.bytes s.cfg.cmdFlashErase) (s := verifiedState s.cfg.cmdFlashErase f s) (d := s)
    ⟨rfl, rfl⟩]
  simp [pageBounds, verifiedState, hc, abort, report, doneState, emit, endCycle]

/-- FLASH_ERASE within the page-count bound (rules R108 to R111): it completes, and the answer is ERR of the next
state. -/
theorem execFlashErase_valid (f : Frame) (s : State) (hs : s.flashCs = false)
    (hv : frameSum s s.cfg.cmdFlashErase f = f.crc) (q : State)
    (hq : readEraseFields (f.bytes s.cfg.cmdFlashErase) s = q) (hc : ¬ s.cfg.maxPages < q.pCount) :
    ∃ t : State, execFlashErase f s = .next t ∧ t =
      { doneState s.cfg.cmdFlashErase f
          [.tx [s.cfg.ackMarker, 1], .flashUnlock, .erase (eraseRequestOf s.cfg q.pCount q.pAddr) t.err, .flashLock,
            .tx [if t.err = 0 then s.cfg.stEraseOk else s.cfg.stEraseFail]] s with
        pCount := q.pCount
        pAddr := q.pAddr
        pageStatus := .valid
        err := t.err
        eraseOutcome := if t.err = 0 then .succeeded else .failed
        oracle := t.oracle
        drawCount := t.drawCount
        flash := []
        unlocked := false
        history := .erase (eraseRequestOf s.cfg q.pCount q.pAddr) t.err :: s.history } := by
  simp only [execFlashErase, verified_eq, hv, if_true]
  rw [readEraseFields_congr (f.bytes s.cfg.cmdFlashErase) (s := verifiedState s.cfg.cmdFlashErase f s) (d := s)
    ⟨rfl, rfl⟩, hq]
  simp only [pageBounds, verifiedState, hc, sendAckHeader_eq, emit, if_false]
  generalize hw : ({ s with
    cmd := s.cfg.cmdFlashErase, hostCrc := f.crc, verify := .passed, crcAcc := s.cfg.crcInit
    pCount := q.pCount, pAddr := q.pAddr, oracle := q.oracle, drawCount := q.drawCount, pageStatus := .valid
    evt := s.evt ++ [.diag s.cfg.cmdFlashErase] ++ [.tx [s.cfg.ackMarker, 1]] } : State) = w
  obtain ⟨t, ht, he⟩ := eraseBracket_spec w (by rw [← hw]; exact hs)
  rw [ht]
  refine ⟨_, rfl, ?_⟩
  rw [he, ← hw]
  generalize t.err = e
  by_cases h0 : e = 0
  · subst h0
    simp [eraseFinish, outcomeOf, doneState, eraseStatusByte, endCycle, emit]
  · have h0' : ¬ e = 0#32 := h0
    simp [eraseFinish, outcomeOf, doneState, endCycle, emit, h0', abort, report]

/-- MEMORY_WRITE with an invalid start address (rules R112 and R116), in any state: AddressInvalid. -/
theorem execMemoryWrite_invalid (f : Frame) (s : State) (hv : frameSum s s.cfg.cmdMemoryWrite f = f.crc)
    (hc : addrValid s.cfg (readWriteFields (f.bytes s.cfg.cmdMemoryWrite) s).wAddr = .invalid) :
    execMemoryWrite f s = .next
      { doneState s.cfg.cmdMemoryWrite f [.tx [s.cfg.ackMarker, 1], .tx [s.cfg.stAddrInvalid]] s with
        wAddr := (readWriteFields (f.bytes s.cfg.cmdMemoryWrite) s).wAddr
        wLen := (readWriteFields (f.bytes s.cfg.cmdMemoryWrite) s).wLen
        verdict := .invalid
        oracle := (readWriteFields (f.bytes s.cfg.cmdMemoryWrite) s).oracle
        drawCount := (readWriteFields (f.bytes s.cfg.cmdMemoryWrite) s).drawCount } := by
  simp only [execMemoryWrite, verified_eq, hv, if_true]
  rw [readWriteFields_congr (f.bytes s.cfg.cmdMemoryWrite) (s := verifiedState s.cfg.cmdMemoryWrite f s) (d := s)
    ⟨rfl, rfl⟩]
  simp [verifiedState, hc, abort, report, doneState, emit, endCycle]

/-- MEMORY_WRITE with a valid start address: the bracket of `programBracket_spec` from the state `w`, then the status
byte. -/
theorem execMemoryWrite_valid (f : Frame) (s : State) (hs : s.flashCs = false)
    (hv : frameSum s s.cfg.cmdMemoryWrite f = f.crc) (q : State)
    (hq : readWriteFields (f.bytes s.cfg.cmdMemoryWrite) s = q) (hc : addrValid s.cfg q.wAddr = .valid) :
    ∃ w t : State, execMemoryWrite f s = .next (writeFinish t) ∧
      w = { s with
        cmd := s.cfg.cmdMemoryWrite, hostCrc := f.crc, verify := .passed, crcAcc := s.cfg.crcInit
        wAddr := q.wAddr, wLen := q.wLen, oracle := q.oracle, drawCount := q.drawCount, verdict := .valid
        evt := s.evt ++ [.diag s.cfg.cmdMemoryWrite] ++ [.tx [s.cfg.ackMarker, 1]] } ∧
      flashBracket (fun s4 => programLoop (f.bytes s.cfg.cmdMemoryWrite) (halfCount s4.wLen)
        { s4 with wStatus := .passed, k := 0 }) w = .next t := by
  simp only [execMemoryWrite, verified_eq, hv, if_true]
  rw [readWriteFields_congr (f.bytes s.cfg.cmdMemoryWrite) (s := verifiedState s.cfg.cmdMemoryWrite f s) (d := s)
    ⟨rfl, rfl⟩, hq]
  simp only [verifiedState, hc, sendAckHeader_eq, emit]
  generalize hw : ({ s with
    cmd := s.cfg.cmdMemoryWrite, hostCrc := f.crc, verify := .passed, crcAcc := s.cfg.crcInit
    wAddr := q.wAddr, wLen := q.wLen, oracle := q.oracle, drawCount := q.drawCount, verdict := .valid
    evt := s.evt ++ [.diag s.cfg.cmdMemoryWrite] ++ [.tx [s.cfg.ackMarker, 1]] } : State) = w
  obtain ⟨t, u, reqs, ht, -⟩ := programBracket_spec (f.bytes s.cfg.cmdMemoryWrite) w (by rw [← hw]; exact hs)
  refine ⟨w, t, ?_, rfl, ht⟩
  rw [ht]
  rfl

end Sys2Proof.Machine
end

