-- ==== Sys2Proof/Laws/Live.lean ====
section
/-! SUPPORT. The flash commands' next state, as far as later cycles can see it, does not depend on what earlier cycles
left in the receive registers and the working registers (rules R17, R20 and R28). -/

namespace Sys2Proof.Machine

/-- Everything of a state that the block reads before it writes it, outside the receive buffer. -/
structure Live where
  cfg : Config
  phase : Phase
  crcAcc : Word
  flashCs : Bool
  evt : List Event
  rxIn : List RxEvent
  oracle : List Word
  drawCount : Nat
  flash : Memory
  history : List Event
  controller : Controller
  unlocked : Bool
  resets : List Nat

/-- The live part of a state. -/
def live (s : State) : Live := ⟨s.cfg, s.phase, s.crcAcc, s.flashCs, s.evt, s.rxIn, s.oracle, s.drawCount, s.flash,
  s.history, s.controller, s.unlocked, s.resets⟩
/-- The live part of an outcome's next state. -/
def liveO : Result → Option Live
  | .next s => some (live s)
  | .fault _ => none
  | .refused _ => none

/-- Two states that the programming loop cannot tell apart. -/
structure LoopSame (s t : State) : Prop where
  live : live s = live t
  wAddr : s.wAddr = t.wAddr
  wStatus : s.wStatus = t.wStatus
  k : s.k = t.k

/-- What the programming loop leaves that its caller reads. -/
def loopO : Result → Option (Live × WriteStatus)
  | .next s => some (live s, s.wStatus)
  | .fault _ => none
  | .refused _ => none

theorem programLoop_live (bs : List Byte) (n : Nat) : ∀ s t : State, s.flashCs = true → LoopSame s t →
   loopO (programLoop bs n s) = loopO (programLoop bs n t) := by
  induction n with
  | zero => intro s t _ h; simp only [programLoop, loopO, h.live, h.wStatus]
  | succ n ih =>
    intro s t hcs h
    have hcst : t.flashCs = true := by rw [← hcs]; exact (congrArg Live.flashCs h.live).symm
    have hsd : SameDraws s t := ⟨congrArg Live.oracle h.live, congrArg Live.drawCount h.live⟩
    have hcfg : s.cfg = t.cfg := congrArg Live.cfg h.live
    have hfl : s.flash = t.flash := congrArg Live.flash h.live
    have hc : s.controller = t.controller := congrArg Live.controller h.live
    have hh : s.history = t.history := congrArg Live.history h.live
    have hu : s.unlocked = t.unlocked := congrArg Live.unlocked h.live
    have hr : s.resets = t.resets := congrArg Live.resets h.live
    have hev : s.evt = t.evt := congrArg Live.evt h.live
    have h1 : s.phase = t.phase := congrArg Live.phase h.live
    have h2 : s.crcAcc = t.crcAcc := congrArg Live.crcAcc h.live
    have h3 : s.rxIn = t.rxIn := congrArg Live.rxIn h.live
    rw [programLoop, programLoop]
    dsimp only
    unfold dataHalf programAnswer
    obtain ⟨p, hp⟩ : ∃ p, p = frameHalf bs (7 + 2 * t.k.toNat) t := ⟨_, rfl⟩
    have e1 : frameHalf bs (7 + 2 * s.k.toNat) s = (p.1, takeDraws s p.2) := by rw [h.k, hp]; exact frameHalf_congr bs _ hsd
    have e2 : frameHalf bs (7 + 2 * t.k.toNat) t = (p.1, takeDraws t p.2) := by rw [hp]; exact frameHalf_congr bs _ SameDraws.rfl
    rw [e1, e2]
    dsimp only
    rw [drawBit_congr (SameDraws.take s p.2), drawBit_congr (SameDraws.take t p.2)]
    generalize drawBit p.2 = q
    simp only [flashProgram, takeDraws, hcs, hcst, if_true, andThen_next, emit, hcfg]
    split
    · simp only [loopO, live, hfl, hev, hc, hh, hu, hr, h.wAddr, h.wStatus, h1, h2, h3, h.k]
    · apply ih _ _ (by first | exact hcs | rfl)
      exact ⟨by simp only [live, hfl, hev, hc, hh, hu, hr, h.wAddr, h1, h2, h3, h.k], h.wAddr, by simp only [h.wStatus], by simp only [h.k]⟩

/-- `s` with the receive registers and the working registers of `u` (rules R17, R18 and R20). -/
def stale (s u : State) : State := { s with
  rxbuf := u.rxbuf, rxlen := u.rxlen, rxcnt := u.rxcnt, cmd := u.cmd, hostCrc := u.hostCrc, verify := u.verify
  pCount := u.pCount, pAddr := u.pAddr, pageStatus := u.pageStatus, eraseOutcome := u.eraseOutcome, err := u.err
  wAddr := u.wAddr, wLen := u.wLen, verdict := u.verdict, wStatus := u.wStatus, k := u.k }

theorem stale_eq (s t : State) (h : live s = live t) : t = stale s t := by
  cases s; cases t
  simp only [live, Live.mk.injEq] at h
  obtain ⟨rfl, rfl, rfl, rfl, rfl, rfl, rfl, rfl, rfl, rfl, rfl, rfl, rfl⟩ := h
  rfl

/-- FLASH_ERASE does not read what earlier cycles left in the receive and working registers. -/
theorem execFlashErase_live (f : Frame) (s u : State) (hcs : s.flashCs = false) : liveO (execFlashErase f (stale s u)) = liveO (execFlashErase f s) := by
  simp only [execFlashErase, verified_eq]
  have : frameSum (stale s u) (stale s u).cfg.cmdFlashErase f = frameSum s s.cfg.cmdFlashErase f := rfl
  rw [this]
  split
  · rw [readEraseFields_congr (f.bytes s.cfg.cmdFlashErase) (s := verifiedState s.cfg.cmdFlashErase f s) (d := s) ⟨rfl, rfl⟩]
    have : (stale s u).cfg.cmdFlashErase = s.cfg.cmdFlashErase := rfl
    rw [this]
    rw [readEraseFields_congr (f.bytes s.cfg.cmdFlashErase) (s := verifiedState s.cfg.cmdFlashErase f (stale s u)) (d := s) ⟨rfl, rfl⟩]
    generalize readEraseFields (f.bytes s.cfg.cmdFlashErase) s = q
    by_cases hc : s.cfg.maxPages < q.pCount
    · simp only [verifiedState, sendAckHeader_eq, emit, pageBounds, stale, hc, if_true, liveO, live, abort, report, endCycle, emit, sendPayload_eq]
    · simp only [verifiedState, sendAckHeader_eq, emit, pageBounds, stale, hc, if_false]
      simp only [flashBracket, flashUnlock, hcs, emit, andThen_next, Bool.false_eq_true, if_false, eraseRequests, eraseAnswer]
      by_cases hk : knownErased s.history (eraseRequestOf s.cfg q.pCount q.pAddr) = true
      · simp only [hk, if_true, flashErase, andThen_next, flashLock, emit, eraseFinish, outcomeOf, liveO]
        simp [live, endCycle, emit]
      · simp only [hk, Bool.false_eq_true, if_false]
        simp only [draw]
        rcases hq : q.oracle with _ | ⟨w, ws⟩
        · simp only [flashErase, if_true, andThen_next, flashLock, emit, eraseFinish, outcomeOf, liveO]
          by_cases h0 : Config.freeWord q.drawCount = 0
          · simp [h0, live, endCycle, emit]
          · have h0' : ¬ Config.freeWord q.drawCount = 0#32 := h0
            simp [h0', live, abort, report, endCycle, emit]
        · simp only [flashErase, if_true, andThen_next, flashLock, emit, eraseFinish, outcomeOf, liveO]
          by_cases h0 : w = 0
          · simp [h0, live, endCycle, emit]
          · have h0' : ¬ w = 0#32 := h0
            simp [h0', live, abort, report, endCycle, emit]
  · rfl

/-- MEMORY_WRITE does not read what earlier cycles left in the receive and working registers. -/
theorem execMemoryWrite_live (f : Frame) (s u : State) (hcs : s.flashCs = false) : liveO (execMemoryWrite f (stale s u)) = liveO (execMemoryWrite f s) := by
  simp only [execMemoryWrite, verified_eq]
  have : frameSum (stale s u) (stale s u).cfg.cmdMemoryWrite f = frameSum s s.cfg.cmdMemoryWrite f := rfl
  rw [this]
  split
  · rw [readWriteFields_congr (f.bytes s.cfg.cmdMemoryWrite) (s := verifiedState s.cfg.cmdMemoryWrite f s) (d := s) ⟨rfl, rfl⟩]
    have : (stale s u).cfg.cmdMemoryWrite = s.cfg.cmdMemoryWrite := rfl
    rw [this]
    rw [readWriteFields_congr (f.bytes s.cfg.cmdMemoryWrite) (s := verifiedState s.cfg.cmdMemoryWrite f (stale s u)) (d := s) ⟨rfl, rfl⟩]
    generalize readWriteFields (f.bytes s.cfg.cmdMemoryWrite) s = q
    rcases hc : addrValid s.cfg q.wAddr with _ | _
    rotate_left
    · simp only [verifiedState, sendAckHeader_eq, emit, stale, hc, liveO, live, abort, report, endCycle, emit, sendPayload_eq]
    · simp only [verifiedState, sendAckHeader_eq, emit, stale, hc]
      simp only [flashBracket, flashUnlock, hcs, emit, andThen_next, Bool.false_eq_true, if_false]
      generalize hA : programLoop _ _ _ = A
      generalize hB : programLoop _ _ _ = B
      have hAB : loopO A = loopO B := by
        rw [← hA, ← hB]
        exact programLoop_live _ _ _ _ rfl ⟨rfl, rfl, rfl, rfl⟩
      rcases A with a | a | a <;> rcases B with b | b | b <;> simp only [loopO, Option.some.injEq, Prod.mk.injEq, reduceCtorEq] at hAB <;> try rfl
      obtain ⟨h1, h2⟩ := hAB
      simp only [andThen_next, flashLock]
      rw [show a.flashCs = b.flashCs from congrArg Live.flashCs h1]
      split
      · simp only [andThen_next, emit, writeFinish, h2, liveO]
        simp only [live, Live.mk.injEq] at h1
        obtain ⟨h3, h4, h5, h6, h7, h8, h9, h10, h11, h12, h13, h14, h15⟩ := h1
        split <;> simp [live, abort, report, endCycle, emit, *]
      · rfl
  · rfl

theorem sameLive_of_live (s t : State) (h : live s = live t) (hp : s.phase = .waitLen) : SameLive s t := by
  simp only [live, Live.mk.injEq] at h
  obtain ⟨h1, h2, h3, h4, h5, h6, h7, h8, h9, h10, h11, h12, h13⟩ := h
  exact ⟨h1, h2, h3, h4, h5, h6, h7, h8, h9, h10, h11, h12, h13, by simp [hp], by simp [hp], by simp [hp]⟩

theorem live_of_sameLive (s t : State) (h : SameLive s t) : live s = live t := by
  simp only [live, h.cfg, h.phase, h.crcAcc, h.flashCs, h.evt, h.rxIn, h.oracle, h.drawCount, h.flash,
    h.history, h.controller, h.unlocked, h.resets]

end Sys2Proof.Machine
end

