-- ==== Sys2Proof/Laws/PerInstr.lean ====
section
/-! SUPPORT. The per-instruction family `EncodeLength`: how long each instruction's frame is, in every
configuration, in terms of its payload (rules R46 and R47). -/

namespace Sys2Proof.Laws.EncodeLength

/-- The frame of an instruction has six bytes beside its payload: the length byte, the command byte and four checksum
bytes; a well-formed one has RXLEN + 1 bytes (rule R46). -/
def Statement (i : Sys2Proof.Instr) : Prop :=
  ∀ c : Sys2Proof.Config,
    (Sys2Proof.encode c i).length = i.frame.payload.length + 6 ∧
    (i.wf = true → (Sys2Proof.encode c i).length = i.frame.len.toNat + 1)

theorem bytes_length (code : Byte) (f : Frame) :
    (f.bytes code).length = f.payload.length + 6 ∧
    (f.lengthMatches = true → (f.bytes code).length = f.len.toNat + 1) := by
  have h : (f.bytes code).length = f.payload.length + 6 := by simp [Frame.bytes, Frame.covered, wordBytes]
  refine ⟨h, fun hm => ?_⟩
  have hl : f.len.toNat = f.payload.length + 5 := by simpa [Frame.lengthMatches] using hm
  omega

theorem getVersion (f : Frame) : Statement (.getVersion f) := fun _ => bytes_length _ f

theorem getHelp (f : Frame) : Statement (.getHelp f) := fun _ => bytes_length _ f

theorem getChipId (f : Frame) : Statement (.getChipId f) := fun _ => bytes_length _ f

theorem goToAddress (f : Frame) : Statement (.goToAddress f) := fun _ => bytes_length _ f

theorem flashErase (f : Frame) : Statement (.flashErase f) := fun _ => bytes_length _ f

theorem memoryWrite (f : Frame) : Statement (.memoryWrite f) := fun _ => bytes_length _ f

end Sys2Proof.Laws.EncodeLength
end

