-- ==== Sys2Proof/Laws/Receive.lean ====
section
/-! SUPPORT. What the receive buffer holds when a frame is dispatched. -/

namespace Sys2Proof.Machine

/-- In EXEC a state that meets the invariant holds a whole frame: what its bytes decode to depends on the command byte
alone (rules R47, R71 and R73). -/
theorem receivedBytes_decodes (s : State) (h : Inv s) (hp : s.phase = .exec) :
    ∃ f : Frame, f.lengthMatches = true ∧ f.bytes s.rxbuf[1] = receivedBytes s ∧ decode s.cfg (receivedBytes s) =
      match commandOf s.cfg s.rxbuf[1] f with
      | some i => .instr i []
      | none => .unknown s.rxbuf[1] f [] := by
  have h5 := (h.frameDone hp).2
  have h0 := h.lengthCopied (by simp [hp])
  have hlen : (receivedBytes s).length = s.rxlen.toNat + 1 := by
    simp [receivedBytes]; have := s.rxlen.isLt; omega
  have g0 : (receivedBytes s)[0]? = some s.rxlen := by
    rw [← h0]
    simp [receivedBytes]
  have g1 : (receivedBytes s)[1]? = some s.rxbuf[1] := by
    simp [receivedBytes, List.getElem?_take]; omega
  obtain ⟨tail, hrb⟩ : ∃ tail, receivedBytes s = s.rxlen :: s.rxbuf[1] :: tail := by
    match hr : receivedBytes s with
    | [] => simp [hr] at g0
    | [a] => simp [hr] at g1
    | a :: b :: tail => simp [hr] at g0 g1; subst g0 g1; exact ⟨tail, rfl⟩
  have htl : tail.length = s.rxlen.toNat - 1 := by rw [hrb] at hlen; simp at hlen; omega
  obtain ⟨e1, e2, e3⟩ := frameOf_tail s.rxlen tail (by omega) (by omega)
  refine ⟨frameOf s.rxlen tail, e2, ?_, ?_⟩
  · rw [hrb]; simp only [Frame.bytes, Frame.covered, e3, List.cons_append, e1]
  · rw [hrb]
    unfold decode
    simp only
    rw [if_neg (by simp; omega), if_neg (by omega), ← htl, List.take_length, List.drop_length]
    all_goals rfl

end Sys2Proof.Machine
end

