-- ==== Sys2Proof/Laws/Run.lean ====
section
/-! SUPPORT. Unfolding a run of the machine one step at a time. -/

namespace Sys2Proof.Machine

theorem run_zero (s : State) : core.run 0 s = .next s := rfl

theorem run_succ (n : Nat) {s t : State} (h : step s = .next t) : core.run (n + 1) s = core.run n t := by
  have hs : core.step s = .next t := h
  simp only [Host.Core.run, hs]

theorem run_add (m n : Nat) : ∀ {s t : State}, core.run m s = .next t → core.run (m + n) s = core.run n t := by
  induction m with
  | zero =>
    intro s t h
    have hst : (Host.Outcome.next s : Result) = .next t := h
    obtain rfl : s = t := by injection hst
    rw [Nat.zero_add]
  | succ m ih =>
    intro s t h
    rcases hs : step s with u | r | r
    · rw [run_succ m hs] at h
      rw [Nat.succ_add, run_succ _ hs]
      exact ih h
    · have hc : core.step s = .fault r := hs
      simp [Host.Core.run, hc] at h
    · have hc : core.step s = .refused r := hs
      simp [Host.Core.run, hc] at h

end Sys2Proof.Machine
end

