-- ==== Sys2Proof/Laws/Trace.lean ====
section
/-! SUPPORT. The critical section along a trace: `bracketRun` over appended lists and over program requests. -/

namespace Sys2Proof.Machine

theorem bracketRun_append (xs ys : List Event) (held : Bool) :
    bracketRun held (xs ++ ys) = (bracketRun held xs).bind fun h => bracketRun h ys := by
  induction xs generalizing held with
  | nil => rfl
  | cons e xs ih =>
    cases e <;> simp only [List.cons_append, bracketRun] <;> first | (split <;> simp [ih]) | simp [ih]

theorem bracketRun_programs (reqs tail : List Event) (h : ∀ e ∈ reqs, ∃ a v ok, e = .program a v ok) :
    bracketRun true (reqs ++ tail) = bracketRun true tail := by
  induction reqs with
  | nil => rfl
  | cons e reqs ih =>
    obtain ⟨a, v, ok, rfl⟩ := h e (by simp)
    simp only [List.cons_append, bracketRun, if_true]
    exact ih fun e he => h e (by simp [he])

end Sys2Proof.Machine
end

