-- ==== Sys2Proof/Tests/Slice0.lean ====
section
/-! SUPPORT. Tests of the model against the spec's own vectors (spec/95_test_vectors.md), the smoke tests of WellFormed
and Config.Ok, and a witness for the hypotheses of every obligation that has some. -/

namespace Sys2Proof.Tests
open Sys2Proof Sys2Proof.Machine
-- one theorem at a time: run side by side, the kernel evaluations below can exhaust the checker's threads
set_option Elab.async false

/-! ### Helpers -/

/-- A block with configuration `c` that has just received the frame `bs`, with the next answers fixed. -/
def received (c : Config) (bs : List Byte) (oracle : List Word) : State :=
  { loadFrame bs (State.resetWith c) with oracle := oracle }

/-- A block with configuration `c` waiting for a length byte, with RX events to come. -/
def listening (c : Config) (rx : List RxEvent) : State := { State.resetWith c with rxIn := rx }

/-- A block in the middle of a frame of `len` body bytes of which `cnt` have come, with RX events to come. -/
def receiving (len cnt : Byte) (rx : List RxEvent) : State :=
  { State.reset with
    phase := .waitBody, rxbuf := State.reset.rxbuf.set 0 len, rxlen := len, rxcnt := cnt, rxIn := rx }

/-- The trace after a step, if it is a next state. -/
def trace : Result → Option (List Event)
  | .next s => some s.evt
  | .fault _ => none
  | .refused _ => none

/-- The phase after a step, if it is a next state. -/
def phaseOf : Result → Option Phase
  | .next s => some s.phase
  | .fault _ => none
  | .refused _ => none

/-- The next state, or the given one. -/
def nextOr (d : State) : Result → State
  | .next s => s
  | .fault _ => d
  | .refused _ => d

def isNext : Result → Bool
  | .next _ => true
  | .fault _ => false
  | .refused _ => false

theorem isNext_eq {r : Result} (h : isNext r = true) (d : State) : r = .next (nextOr d r) := by
  cases r <;> simp [isNext, nextOr] at h ⊢

/-- GV-1, GH-1, CI-1, GT-1, FE-1 and MW-1. -/
def gv1 : List Byte := [0x05, 0x10, 0x27, 0x84, 0xEC, 0x4C]
def gh1 : List Byte := [0x05, 0x11, 0x90, 0x99, 0x2D, 0x48]
def ci1 : List Byte := [0x05, 0x12, 0x49, 0xBF, 0x6E, 0x45]
def gt1 : List Byte := [0x09, 0x14, 0x00, 0x80, 0x00, 0x08, 0xE7, 0x68, 0xC3, 0xCB]
def fe1 : List Byte := [0x0A, 0x15, 0x02, 0x00, 0x80, 0x00, 0x08, 0xD2, 0x6D, 0x27, 0xFA]
def mw1 : List Byte := [0x0E, 0x16, 0x00, 0x80, 0x00, 0x08, 0x04, 0x11, 0x22, 0x33, 0x44, 0x77, 0x8F, 0x72, 0x64]

def gv1Frame : Frame := ⟨5, [], 0x4CEC8427⟩
def gh1Frame : Frame := ⟨5, [], 0x482D9990⟩
def ci1Frame : Frame := ⟨5, [], 0x456EBF49⟩
def gt1Frame : Frame := ⟨9, [0x00, 0x80, 0x00, 0x08], 0xCBC368E7⟩
def fe1Frame : Frame := ⟨10, [0x02, 0x00, 0x80, 0x00, 0x08], 0xFA276DD2⟩
def mw1Frame : Frame := ⟨14, [0x00, 0x80, 0x00, 0x08, 0x04, 0x11, 0x22, 0x33, 0x44], 0x64728F77⟩

/-! ### Well-formedness and the configuration's constraints -/

theorem test_wf_refuses_a_short_length : Instr.wf (.getVersion ⟨4, [], 0⟩) = false := by decide

theorem test_wf_refuses_a_long_length : Instr.wf (.memoryWrite ⟨15, [0, 0, 0, 0, 4, 1, 2, 3, 4], 0⟩) = false := by
  decide

/-- A payload of 251 bytes has no length byte (rule R62: at most 250). -/
theorem test_wf_refuses_a_payload_of_251 : Instr.wf (.goToAddress ⟨0, List.replicate 251 0, 0⟩) = false := by
  decide +kernel

theorem test_wf_accepts_the_largest_payload : Instr.wf (.goToAddress ⟨255, List.replicate 250 0, 0⟩) = true := by
  decide +kernel

theorem test_config_tc_is_ok : Config.tc.Ok := by decide +kernel

/-- Each constraint of rules R7, R8, R103 and R107 refuses a configuration that breaks it. -/
theorem test_config_refuses_each_broken_constraint :
    ([
      { Config.tc with cmdGetHelp := 0x10, helpList := #v[0x10, 0x10, 0x12, 0x14, 0x15, 0x16] },
      { Config.tc with ackMarker := 0xAB },
      { Config.tc with helpList := #v[0x10, 0x11, 0x12, 0x13, 0x15, 0x16] },
      { Config.tc with maxPages := 0xFF },
      { Config.tc with flashBase := 0x08020000 },
      { Config.tc with sramBase := 0 },
      { Config.tc with stEraseFail := 0x00 },
      { Config.tc with stWriteOk := 0x00, stAddrInvalid := 0x05 },
      { Config.tc with stAddrInvalid := 0x01 },
      { Config.tc with cidSendLen := 0 },
      { Config.tc with cidSendLen := 7 }] : List Config).all (fun c => !decide c.Ok) = true := by decide +kernel

/-! ### Decoding and encoding -/

/-- The six command bytes, bit by bit, as rule R56's TC column and spec/opcode_table.json give them. -/
theorem test_decode_command_bytes :
    commandOf Config.tc 0b00010000 gv1Frame = some (.getVersion gv1Frame) ∧
    commandOf Config.tc 0b00010001 gv1Frame = some (.getHelp gv1Frame) ∧
    commandOf Config.tc 0b00010010 gv1Frame = some (.getChipId gv1Frame) ∧
    commandOf Config.tc 0b00010100 gv1Frame = some (.goToAddress gv1Frame) ∧
    commandOf Config.tc 0b00010101 gv1Frame = some (.flashErase gv1Frame) ∧
    commandOf Config.tc 0b00010110 gv1Frame = some (.memoryWrite gv1Frame) := by decide

theorem test_decode_get_version : decode Config.tc gv1 = .instr (.getVersion gv1Frame) [] := by decide +kernel

theorem test_decode_get_help : decode Config.tc gh1 = .instr (.getHelp gh1Frame) [] := by decide +kernel

theorem test_decode_get_chip_id : decode Config.tc ci1 = .instr (.getChipId ci1Frame) [] := by decide +kernel

theorem test_decode_go_to_address : decode Config.tc gt1 = .instr (.goToAddress gt1Frame) [] := by decide +kernel

theorem test_decode_flash_erase : decode Config.tc fe1 = .instr (.flashErase fe1Frame) [] := by decide +kernel

theorem test_decode_memory_write : decode Config.tc mw1 = .instr (.memoryWrite mw1Frame) [] := by decide +kernel

/-- UK-1, and a frame followed by another byte. -/
theorem test_decode_unknown_and_rest :
    decode Config.tc [0x05, 0x99, 0xC6, 0x94, 0x29, 0x07] = .unknown 0x99 ⟨5, [], 0x072994C6⟩ [] ∧
    decode Config.tc (gv1 ++ [0xEC]) = .instr (.getVersion gv1Frame) [0xEC] := by decide +kernel

/-- RX-3, RX-8 and an empty list are rejected by name. -/
theorem test_decode_rejects :
    decode Config.tc [0x04, 0x10, 0xAA, 0xBB, 0xCC] = .rejected .tooShort ∧
    decode Config.tc [0x05, 0x10, 0x27] = .rejected .incomplete ∧
    decode Config.tc [] = .rejected .noLengthByte := by decide +kernel

/-- Rule R62's construction gives the spec's frames of GV-1, FE-1 and MW-1. -/
theorem test_host_frames :
    (hostFrame Config.tc 0x10 []).bytes 0x10 = gv1 ∧
    (hostFrame Config.tc 0x15 [0x02, 0x00, 0x80, 0x00, 0x08]).bytes 0x15 = fe1 ∧
    (hostFrame Config.tc 0x16 [0x00, 0x80, 0x00, 0x08, 0x04, 0x11, 0x22, 0x33, 0x44]).bytes 0x16 = mw1 := by
  decide +kernel

/-- The opcode table's six rows; 0x13 and 0x99 are in none. GV-1, GT-2 and FE-8's shape of zeros. -/
theorem test_table_words :
    decodeTableWord 8 0x10 = some (.getVersion gv1Frame) ∧
    decodeTableWord 8 0x11 = some (.getHelp gh1Frame) ∧
    decodeTableWord 8 0x12 = some (.getChipId ci1Frame) ∧
    decodeTableWord 8 0x14 = some (.goToAddress ⟨5, [], 0x5FE8F2FB⟩) ∧
    (decodeTableWord 8 0x15).map (fun i => i.frame.payload) = some [0, 0, 0, 0, 0] ∧
    (decodeTableWord 8 0x16).map (fun i => i.frame.payload) = some [0, 0, 0, 0, 0] ∧
    decodeTableWord 8 0x13 = none ∧ decodeTableWord 8 0x99 = none := by decide +kernel

/-- From reset, a step runs each table row's instruction. -/
theorem test_fetch_words :
    trace (step (State.reset.withFetchWord 8 0x10)) = some [.diag 0x10, .tx [0xCD, 4], .tx [0x64, 1, 0, 0]] ∧
    trace (step (State.reset.withFetchWord 8 0x14)) = some [.diag 0x14] ∧
    trace (step (State.reset.withFetchWord 8 0x16)) = some [.diag 0x16, .tx [0xCD, 1], .tx [0]] := by
  decide +kernel

/-! ### Checksum and address validator -/

/-- CS-1 to CS-5. -/
theorem test_crc_vectors :
    crcStepTc 0xFFFFFFFF 0x00000000 = 0xC704DD7B ∧ crcStepTc 0xFFFFFFFF 0x12345678 = 0xDF8A8A2B ∧
    crcFold .tc 0xFFFFFFFF [0x05] = 0xD0C1B610 ∧ crcFold .tc 0xFFFFFFFF [0x05, 0x10] = 0x4CEC8427 ∧
    crcFold .tc 0xFFFFFFFF [0x0A, 0x15, 0x02, 0x00, 0x80, 0x00, 0x08] = 0xFA276DD2 := by decide +kernel

/-- AV-1 to AV-11 with SRAM_UPPER = FlashEnd. -/
theorem test_addr_valid_flash_end :
    ([0x00000000, 0x07FFFFFF, 0x08000000, 0x08008001, 0x0801FFFF, 0x08020000, 0x1FFFFFFF, 0x20000000, 0x20004FFF,
      0x20005000, 0xFFFFFFFF] : List Word).map (addrValid Config.tc) =
    [.invalid, .invalid, .valid, .valid, .valid, .invalid, .invalid, .invalid, .invalid, .invalid, .invalid] := by
  decide +kernel

/-- AV-1 to AV-11 with SRAM_UPPER = SramEnd. -/
theorem test_addr_valid_sram_end :
    ([0x00000000, 0x07FFFFFF, 0x08000000, 0x08008001, 0x0801FFFF, 0x08020000, 0x1FFFFFFF, 0x20000000, 0x20004FFF,
      0x20005000, 0xFFFFFFFF] : List Word).map (addrValid { Config.tc with sramUpper := .sramEnd }) =
    [.invalid, .invalid, .valid, .valid, .valid, .invalid, .invalid, .valid, .valid, .invalid, .invalid] := by
  decide +kernel

/-! ### The receiver, one event at a time -/

/-- Rule R68's example, and RX-1. -/
theorem test_length_byte :
    phaseOf (step (listening Config.tc [.byte 0x05])) = some .waitBody ∧
    phaseOf (step (listening Config.tc [.byte 0x00])) = some .waitLen := by decide +kernel

/-- The last body byte of RX-3's frame and of GV-1's. -/
theorem test_body_byte :
    phaseOf (step (receiving 4 3 [.byte 0xCC])) = some .waitLen ∧
    phaseOf (step (receiving 5 4 [.byte 0x4C])) = some .exec ∧
    phaseOf (step (receiving 5 3 [.byte 0xEC])) = some .waitBody := by decide +kernel

/-- RX-4 and RX-7. -/
theorem test_transport_error :
    trace (step (listening Config.tc [.error])) = some [] ∧
    trace (step (listening { Config.tc with nackOnRxError := true } [.error])) = some [.tx [0xAB]] := by
  decide +kernel

/-! ### The commands, one step each -/

/-- GV-2: the extra payload byte is covered and ignored. -/
theorem test_get_version_extra_byte :
    trace (step (received Config.tc [0x06, 0x10, 0x55, 0x7B, 0x5C, 0x9D, 0xC0] [])) =
      some [.diag 0x10, .tx [0xCD, 0x04], .tx [0x64, 0x01, 0x00, 0x00]] := by decide +kernel

/-- GV-3. -/
theorem test_get_version_bad_checksum :
    trace (step (received Config.tc [0x05, 0x10, 0x26, 0x84, 0xEC, 0x4C] [])) =
      some [.diag 0x10, .tx [0xAB]] := by decide +kernel

/-- GH-1. -/
theorem test_get_help : trace (step (received Config.tc gh1 [])) =
    some [.diag 0x11, .tx [0xCD, 0x06], .tx [0x10, 0x11, 0x12, 0x14, 0x15, 0x16]] := by decide +kernel

/-- GH-2. -/
theorem test_get_help_four : trace (step (received { Config.tc with helpSendCount := .four } gh1 [])) =
    some [.diag 0x11, .tx [0xCD, 0x06], .tx [0x10, 0x11, 0x12, 0x14]] := by decide +kernel

/-- CI-2. -/
theorem test_get_chip_id_two_bytes : trace (step (received { Config.tc with cidSendLen := 2 } ci1 [])) =
    some [.diag 0x12, .tx [0xCD, 0x06], .tx [0x10, 0x04]] := by decide +kernel

/-- CI-4. -/
theorem test_get_chip_id_all_ones : trace (step (received { Config.tc with devId := 0xFFF } ci1 [])) =
    some [.diag 0x12, .tx [0xCD, 0x06], .tx [0xFF, 0x0F, 0x00, 0x00, 0x00, 0x00]] := by decide +kernel

/-- GT-1. -/
theorem test_go_to_address : trace (step (received Config.tc gt1 [])) = some [.diag 0x14] := by decide +kernel

/-- GT-3: the checksum is not checked. -/
theorem test_go_to_address_bad_checksum :
    trace (step (received Config.tc [0x05, 0x14, 0xFA, 0xF2, 0xE8, 0x5F] [])) = some [.diag 0x14] := by decide +kernel

/-- UK-1 under both draws. -/
theorem test_unknown :
    trace (step (received Config.tc [0x05, 0x99, 0xC6, 0x94, 0x29, 0x07] [0])) = some [] ∧
    trace (step (received Config.tc [0x05, 0x99, 0xC6, 0x94, 0x29, 0x07] [1])) = some [.diag 0x99] := by
  decide +kernel

/-- FE-6 (the count check precedes the sentinel), FE-10 (verification precedes the count check) and FE-11 (a short
frame, whose page count is a checksum byte). -/
theorem test_flash_erase_rejects :
    trace (step (received Config.tc [0x0A, 0x15, 0xFF, 0xFF, 0xFF, 0xFF, 0xFF, 0xE9, 0x82, 0xD8, 0x74] [])) =
      some [.diag 0x15, .tx [0xCD, 0x01], .tx [0x00]] ∧
    trace (step (received Config.tc [0x0A, 0x15, 0xFF, 0x00, 0x80, 0x00, 0x08, 0x71, 0x52, 0xED, 0xA7] [])) =
      some [.diag 0x15, .tx [0xAB]] ∧
    trace (step (received Config.tc [0x05, 0x15, 0x4C, 0xEF, 0x29, 0x5B] [0])) =
      some [.diag 0x15, .tx [0xCD, 0x01], .tx [0x00]] := by decide +kernel

/-- FE-2, FE-7 and FE-9b. -/
theorem test_flash_erase_runs :
    trace (step (received Config.tc fe1 [1])) =
      some [.diag 0x15, .tx [0xCD, 0x01], .flashUnlock, .erase (.byPage 0x08008000 2) 1, .flashLock, .tx [0x02]] ∧
    trace (step (received Config.tc [0x0A, 0x15, 0x00, 0xFF, 0xFF, 0xFF, 0xFF, 0xF1, 0xDF, 0xB4, 0x06] [0])) =
      some [.diag 0x15, .tx [0xCD, 0x01], .flashUnlock, .erase (.all 0x08008000) 0, .flashLock, .tx [0x03]] ∧
    trace (step (received { Config.tc with eraseStart := .fromAddress }
      [0x0A, 0x15, 0x02, 0x00, 0x90, 0x00, 0x08, 0x0F, 0x76, 0x62, 0xE2] [0])) =
      some [.diag 0x15, .tx [0xCD, 0x01], .flashUnlock, .erase (.byPage 0x08009000 2) 0, .flashLock, .tx [0x03]] := by
  decide +kernel

/-- MW-9a, MW-9b and MW-10 (the second halfword is made of checksum bytes). -/
theorem test_memory_write_runs :
    trace (step (received Config.tc
      [0x10, 0x16, 0x00, 0x80, 0x00, 0x08, 0x06, 0xA1, 0xA2, 0xA3, 0xA4, 0xA5, 0xA6, 0x32, 0x31, 0x79, 0x87]
      [1, 0, 1])) =
      some [.diag 0x16, .tx [0xCD, 0x01], .flashUnlock, .program 0x08008000 0xA2A1 true,
        .program 0x08008002 0xA4A3 false, .program 0x08008004 0xA6A5 true, .flashLock, .tx [0x00]] ∧
    trace (step (received { Config.tc with programStopOnFail := true }
      [0x10, 0x16, 0x00, 0x80, 0x00, 0x08, 0x06, 0xA1, 0xA2, 0xA3, 0xA4, 0xA5, 0xA6, 0x32, 0x31, 0x79, 0x87]
      [1, 0, 1])) =
      some [.diag 0x16, .tx [0xCD, 0x01], .flashUnlock, .program 0x08008000 0xA2A1 true,
        .program 0x08008002 0xA4A3 false, .flashLock, .tx [0x00]] ∧
    trace (step (received Config.tc
      [0x0C, 0x16, 0x00, 0x80, 0x00, 0x08, 0x04, 0x11, 0x22, 0xCE, 0xC7, 0x8E, 0x7D] [1, 1])) =
      some [.diag 0x16, .tx [0xCD, 0x01], .flashUnlock, .program 0x08008000 0x2211 true,
        .program 0x08008002 0xC7CE true, .flashLock, .tx [0x01]] := by decide +kernel

/-- MW-3 (an odd length), MW-4 (no halfword), MW-7a and MW-12. -/
theorem test_memory_write_corners :
    trace (step (received Config.tc
      [0x0D, 0x16, 0x00, 0x80, 0x00, 0x08, 0x03, 0x01, 0x02, 0x03, 0x13, 0x26, 0xD6, 0x34] [1])) =
      some [.diag 0x16, .tx [0xCD, 0x01], .flashUnlock, .program 0x08008000 0x0201 true, .flashLock, .tx [0x01]] ∧
    trace (step (received Config.tc [0x0A, 0x16, 0xFF, 0xFF, 0x01, 0x08, 0x00, 0x9F, 0xF1, 0x1E, 0xDF] [])) =
      some [.diag 0x16, .tx [0xCD, 0x01], .flashUnlock, .flashLock, .tx [0x01]] ∧
    trace (step (received Config.tc
      [0x0C, 0x16, 0x00, 0x00, 0x00, 0x20, 0x02, 0xAA, 0xBB, 0x3C, 0x4A, 0xF4, 0x03] [])) =
      some [.diag 0x16, .tx [0xCD, 0x01], .tx [0x00]] ∧
    trace (step (received Config.tc
      [0x0C, 0x16, 0x00, 0x00, 0x00, 0x00, 0x02, 0xAA, 0xBB, 0x3E, 0xD7, 0xA2, 0x6A] [])) =
      some [.diag 0x16, .tx [0xAB]] := by decide +kernel

/-! ### The flash array, erased pages and resets -/

/-- The same block with the flash controller of assumption 6. -/
def storing (s : State) : State := { s with controller := .stores }

/-- I16 and, of the controller of assumption 6, rule R34: what MW-1's first halfword reads as afterwards. -/
theorem test_array_after_memory_write :
    (nextOr State.reset (step (received Config.tc mw1 [1, 1]))).flash.read 0x08008000 = none ∧
    (nextOr State.reset (step (storing (received Config.tc mw1 [1, 1])))).flash.read 0x08008000 = some 0x11 ∧
    (nextOr State.reset (step (storing (received Config.tc mw1 [1, 1])))).flash.read 0x08008001 = some 0x22 := by
  decide +kernel

/-- Rule R106: FE-1 again after it succeeded takes no other answer. -/
theorem test_erasing_erased_pages :
    trace (step { received Config.tc fe1 [7] with history := [.erase (.byPage 0x08008000 2) 0] }) =
      some [.diag 0x15, .tx [0xCD, 0x01], .flashUnlock, .erase (.byPage 0x08008000 2) 0, .flashLock, .tx [0x03]] := by
  decide +kernel

/-- Rules R141 and R142: MW-1 cut short by a reset leaves WAIT_LEN and an empty trace, and the controller's lock is
whatever the draw says. -/
theorem test_reset_inside_exec :
    phaseOf (step { received Config.tc mw1 [1] with resets := [0] }) = some .waitLen ∧
    trace (step { received Config.tc mw1 [1] with resets := [0] }) = some [] ∧
    (nextOr State.reset (step { received Config.tc mw1 [1] with resets := [0] })).unlocked = true ∧
    (nextOr State.reset (step { received Config.tc mw1 [0] with resets := [0] })).unlocked = false := by
  decide +kernel

/-! ### Witnesses: every obligation with hypotheses has a state and operands that meet them all -/

/-- A state that meets the invariant while it waits for a length byte, one while it waits for a body byte, and one
with a frame to execute. -/
def inExec (bs : List Byte) (oracle : List Word) : State := received Config.tc bs oracle

theorem inv_listening (rx : List RxEvent) : Inv (listening Config.tc rx) :=
  ⟨rfl, rfl, by simp [listening, State.resetWith], by simp [listening, State.resetWith],
    by simp [listening, State.resetWith], rfl, ⟨List.Pairwise.nil, by simp [listening, State.resetWith]⟩⟩

theorem inv_receiving (len cnt : Byte) (rx : List RxEvent) (h : cnt < len) : Inv (receiving len cnt rx) :=
  ⟨rfl, rfl, fun _ => h, by simp [receiving], by simp [receiving], rfl,
    ⟨List.Pairwise.nil, by simp [receiving, State.reset, State.resetWith]⟩⟩

theorem inv_gv1 : Inv (inExec gv1 []) :=
  ⟨rfl, rfl, by decide +kernel, by decide +kernel, by decide +kernel, rfl, by decide⟩

theorem inv_unknown : Inv (inExec [0x05, 0x99, 0xC6, 0x94, 0x29, 0x07] [1]) :=
  ⟨rfl, rfl, by decide +kernel, by decide +kernel, by decide +kernel, rfl, by decide⟩

/-- Between two cycles, in the middle of a frame, and in the middle of a command; with an answer listed and with none. -/
theorem witness_ResetInsideACycleLosesTheFrame :
    (listening Config.tc []).phase = .waitLen ∧ (receiving 5 4 []).phase ≠ .waitLen ∧
    (receiving 5 4 []).oracle = [] ∧ (inExec mw1 [1]).phase ≠ .waitLen ∧ (inExec mw1 []).phase ≠ .waitLen ∧
    (inExec mw1 []).oracle = [] := by decide +kernel

/-- A reset due while a command is to execute, and one that comes a step later. -/
theorem witness_ResetCanComeAtAnyStep :
    ({ inExec mw1 [1, 1] with resets := [0] } : State).resets = 0 :: [] ∧
    ∃ t : State, ({ inExec mw1 [1, 1] with resets := [1] } : State).resets = (0 + 1) :: [] ∧
      step { inExec mw1 [1, 1] with resets := [] } = .next t :=
  ⟨rfl, _, rfl, isNext_eq (by decide +kernel) State.reset⟩

theorem witness_ResetStateMeetsInvariant : Inv (listening Config.tc [.byte 5]) := inv_listening _

theorem witness_StepKeepsInvariant : ∃ s t : State, Inv s ∧ step s = .next t :=
  ⟨_, _, inv_gv1, isNext_eq (by decide +kernel) State.reset⟩

theorem witness_StepFromInvNeverStops :
    Inv (listening Config.tc [.error]) ∧ Inv (receiving 5 4 [.byte 0x4C]) ∧ Inv (inExec gv1 []) :=
  ⟨inv_listening _, inv_receiving _ _ _ (by decide), inv_gv1⟩

/-- The same block with another CMD and another byte at index 6 of the receive buffer. -/
def otherStale (s : State) : State := { s with cmd := 0xFF, rxbuf := s.rxbuf.set 6 0xEE }

theorem sameLive_otherStale (s : State) (h : s.rxcnt.toNat = 5) : SameLive s (otherStale s) := by
  refine ⟨rfl, rfl, rfl, rfl, rfl, rfl, rfl, rfl, rfl, rfl, rfl, rfl, rfl, fun _ => rfl, fun _ => rfl, fun _ i hi => ?_⟩
  simp only [otherStale, Vector.get_eq_getElem]
  rw [Vector.getElem_set_ne _ _ (by omega)]

/-- Two states that differ in working registers, and in the receive buffer beyond the frame. -/
theorem witness_StaleStateIsNeverObserved :
    ∃ s t s' : State, s ≠ t ∧ Inv s ∧ SameLive s t ∧ step s = .next s' :=
  ⟨inExec gv1 [], otherStale (inExec gv1 []), _, by decide +kernel, inv_gv1,
    sameLive_otherStale _ (by decide +kernel), isNext_eq (by decide +kernel) State.reset⟩

theorem witness_StepNeverChangesConfiguration : ∃ s t : State, step s = .next t :=
  ⟨inExec fe1 [0], _, isNext_eq (by decide +kernel) State.reset⟩

theorem witness_StepOnlyAppendsEvents :
    (∃ s t : State, step s = .next t) ∧ ∃ s t : State, s.resets = 0 :: [] ∧ step s = .next t :=
  ⟨⟨inExec mw1 [1, 1], _, isNext_eq (by decide +kernel) State.reset⟩,
    { inExec mw1 [1, 1] with resets := [0] }, _, rfl, isNext_eq (by decide +kernel) State.reset⟩

theorem witness_FlashArrayChangesOnlyByRequests :
    ∃ (s t : State) (es : List Event), s.resets.head? ≠ some 0 ∧ step s = .next t ∧ t.evt = s.evt ++ es ∧
      ∀ e ∈ es, e.isArrayRequest = false :=
  ⟨inExec gv1 [], _, [.diag 0x10, .tx [0xCD, 4], .tx [0x64, 1, 0, 0]], by decide, isNext_eq (by decide +kernel)
    State.reset, by decide +kernel, by decide⟩

/-- FE-1 with an error, and MW-1. -/
theorem witness_ArrayRequestsLeaveAnyContents :
    (∃ (s t : State) (es : List Event), s.controller = .anyContents ∧ exec (.flashErase fe1Frame) s = .next t ∧
      t.evt = s.evt ++ es ∧ ∃ e ∈ es, e.isArrayRequest = true) ∧
    ∃ (s t : State) (es : List Event), s.controller = .anyContents ∧ exec (.memoryWrite mw1Frame) s = .next t ∧
      t.evt = s.evt ++ es ∧ ∃ e ∈ es, e.isArrayRequest = true :=
  ⟨⟨inExec fe1 [1], _, [.diag 0x15, .tx [0xCD, 1], .flashUnlock, .erase (.byPage 0x08008000 2) 1, .flashLock,
      .tx [2]], rfl, isNext_eq (by decide +kernel) State.reset, by decide +kernel, by decide⟩,
    inExec mw1 [1, 0], _, [.diag 0x16, .tx [0xCD, 1], .flashUnlock, .program 0x08008000 0x2211 true,
      .program 0x08008002 0x4433 false, .flashLock, .tx [0]], rfl, isNext_eq (by decide +kernel) State.reset,
    by decide +kernel, by decide⟩

theorem witness_EverySessionEndsWaiting : Inv (listening Config.tc (gv1.map .byte)) ∧ Inv (inExec gv1 []) :=
  ⟨inv_listening _, inv_gv1⟩

/-- The shortest frame and the longest. -/
theorem witness_ChecksumFieldIsLittleEndian :
    gv1Frame.lengthMatches = true ∧ (⟨255, List.replicate 250 0, 0⟩ : Frame).lengthMatches = true := by decide +kernel

theorem witness_EraseFieldsAreReadLittleEndian : fe1Frame.payload = 0x02 :: 0x00 :: 0x80 :: 0x00 :: 0x08 :: [] := rfl

/-- MW-1's frame and its two halfwords, the first and the last. -/
theorem witness_WriteFieldsAreReadLittleEndian :
    mw1Frame.payload = 0x00 :: 0x80 :: 0x00 :: 0x08 :: 0x04 :: [0x11, 0x22, 0x33, 0x44] ∧
    ([0x11, 0x22, 0x33, 0x44] : List Byte)[2 * 0]? = some 0x11 ∧
    ([0x11, 0x22, 0x33, 0x44] : List Byte)[2 * 0 + 1]? = some 0x22 ∧
    ([0x11, 0x22, 0x33, 0x44] : List Byte)[2 * 1]? = some 0x33 ∧
    ([0x11, 0x22, 0x33, 0x44] : List Byte)[2 * 1 + 1]? = some 0x44 := by decide

/-- The last byte of a frame, and the first byte beyond it with and without an answer listed. -/
theorem witness_BytesBeyondTheFrameAreDraws :
    gv1Frame.lengthMatches = true ∧ 5 ≤ gv1Frame.len.toNat ∧ gv1Frame.len.toNat < 6 ∧
    (inExec gv1 [0x77]).oracle = [0x77] ∧ (inExec gv1 []).oracle = [] := by decide +kernel

theorem witness_DecodeOfEncodeIsTheInstruction :
    Config.tc.codes.Nodup ∧ Instr.wf (.memoryWrite mw1Frame) = true := by decide

theorem witness_EncodeOfDecodeIsTheBytes :
    decode Config.tc gv1 = .instr (.getVersion gv1Frame) [] ∧
    decode Config.tc [0x05, 0x99, 0xC6, 0x94, 0x29, 0x07] = .unknown 0x99 ⟨5, [], 0x072994C6⟩ [] := by decide +kernel

theorem witness_UnknownCodesAreAllTheOthers : Config.tc.codes.Nodup := by decide

theorem witness_WaitingWithoutInputChangesNothing :
    (listening Config.tc []).resets = [] ∧ (receiving 5 4 []).resets = [] ∧
    (listening Config.tc []).rxIn = [] ∧ (listening Config.tc []).phase = .waitLen ∧
    (receiving 5 4 []).rxIn = [] ∧ (receiving 5 4 []).phase = .waitBody ∧
    (receiving 5 4 []).rxcnt < (receiving 5 4 []).rxlen := by decide

/-- The length bytes 0, 1 and 255. -/
theorem witness_LengthByteStartsAFrame :
    (listening Config.tc []).resets = [] ∧ (listening Config.tc []).phase = .waitLen ∧ (listening Config.tc [.byte 0]).rxIn = .byte 0 :: [] ∧
    (listening Config.tc [.byte 1]).rxIn = .byte 1 :: [] ∧
    (listening Config.tc [.byte 255]).rxIn = .byte 255 :: [] := by decide

/-- The byte before the last, and the last byte of a frame with RXLEN = 4, 5 and 255. -/
theorem witness_BodyByteExtendsTheFrame :
    (3 : Byte) < 5 ∧ (3 : Byte) < 4 ∧ (4 : Byte) < 5 ∧ (254 : Byte) < 255 ∧
    ∀ len cnt : Byte, cnt < len →
      (receiving len cnt [.byte 9]).resets = [] ∧ (receiving len cnt [.byte 9]).phase = .waitBody ∧
      (receiving len cnt [.byte 9]).rxcnt < (receiving len cnt [.byte 9]).rxlen ∧
      (receiving len cnt [.byte 9]).rxIn = .byte 9 :: [] :=
  ⟨by decide, by decide, by decide, by decide, fun _ _ h => ⟨rfl, rfl, h, rfl⟩⟩

theorem witness_TransportErrorAbortsTheCycle :
    (listening Config.tc [.error]).resets = [] ∧ (receiving 5 4 [.error]).resets = [] ∧
    (listening Config.tc [.error]).rxIn = .error :: [] ∧ (listening Config.tc [.error]).phase = .waitLen ∧
    (receiving 5 4 [.error]).rxIn = .error :: [] ∧ (receiving 5 4 [.error]).phase = .waitBody ∧
    (receiving 5 4 [.error]).rxcnt < (receiving 5 4 [.error]).rxlen := by decide +kernel

/-- RX-1 and RX-3: lengths 0 and 4. -/
theorem witness_ShortFrameIsDiscarded :
    (listening Config.tc [.byte 0]).resets = [] ∧ (listening Config.tc [.byte 0]).phase = .waitLen ∧ ([] : List Byte).length = (0 : Byte).toNat ∧
    (listening Config.tc [.byte 0]).rxIn = ([0] : List Byte).map .byte ++ [] ∧
    ([0x10, 0xAA, 0xBB, 0xCC] : List Byte).length = (4 : Byte).toNat ∧ (4 : Byte).toNat < 5 ∧
    (listening Config.tc (([4, 0x10, 0xAA, 0xBB, 0xCC] : List Byte).map .byte)).rxIn =
      ([4, 0x10, 0xAA, 0xBB, 0xCC] : List Byte).map .byte ++ [] := by decide

theorem witness_ReceivedFrameIsExecuted :
    (listening Config.tc (mw1.map .byte)).cfg.codes.Nodup ∧ Instr.wf (.memoryWrite mw1Frame) = true ∧
    (listening Config.tc (mw1.map .byte)).resets = [] ∧
    (listening Config.tc (mw1.map .byte)).phase = .waitLen ∧
    (listening Config.tc (mw1.map .byte)).rxIn = (encode Config.tc (.memoryWrite mw1Frame)).map .byte ++ [] := by
  decide +kernel

theorem witness_StepRunsTheDecodedInstruction :
    (inExec gv1 []).resets = [] ∧ (inExec [0x05, 0x99, 0xC6, 0x94, 0x29, 0x07] [1]).resets = [] ∧
    (inExec gv1 []).phase = .exec ∧
    decode Config.tc (receivedBytes (inExec gv1 [])) = .instr (.getVersion gv1Frame) [] ∧
    (inExec [0x05, 0x99, 0xC6, 0x94, 0x29, 0x07] [1]).phase = .exec ∧
    decode Config.tc (receivedBytes (inExec [0x05, 0x99, 0xC6, 0x94, 0x29, 0x07] [1])) =
      .unknown 0x99 ⟨5, [], 0x072994C6⟩ [] := by decide +kernel

theorem witness_DispatchFollowsTheCommandByte :
    (Inv (inExec gv1 []) ∧ (inExec gv1 []).resets = [] ∧ (inExec gv1 []).phase = .exec ∧ (inExec gv1 []).rxbuf[1] ∈ (inExec gv1 []).cfg.codes) ∧
    Inv (inExec [0x05, 0x99, 0xC6, 0x94, 0x29, 0x07] [1]) ∧
    (inExec [0x05, 0x99, 0xC6, 0x94, 0x29, 0x07] [1]).resets = [] ∧
    (inExec [0x05, 0x99, 0xC6, 0x94, 0x29, 0x07] [1]).phase = .exec ∧
    (inExec [0x05, 0x99, 0xC6, 0x94, 0x29, 0x07] [1]).rxbuf[1] ∉ Config.tc.codes :=
  ⟨⟨inv_gv1, rfl, rfl, by decide +kernel⟩, inv_unknown, rfl, rfl, by decide +kernel⟩

theorem witness_ExecTakesNoInputAndEndsTheCycle : ∃ s t : State, s.phase = .exec ∧ step s = .next t :=
  ⟨inExec fe1 [1], _, rfl, isNext_eq (by decide +kernel) State.reset⟩

/-- The six commands, each on its own frame. -/
def commands : List Instr :=
  [.getVersion gv1Frame, .getHelp gh1Frame, .getChipId ci1Frame, .goToAddress gt1Frame, .flashErase fe1Frame,
    .memoryWrite mw1Frame]

theorem commands_complete : ∀ i ∈ commands, isNext (exec i (inExec mw1 [1, 1])) = true := by decide +kernel

theorem witness_KnownCommandEmitsOneDiagFirst : ∀ i ∈ commands, ∃ s t : State, exec i s = .next t :=
  fun i hi => ⟨_, _, isNext_eq (commands_complete i hi) State.reset⟩

theorem witness_VerifyComparesTheFoldedChecksum :
    gv1Frame.lengthMatches = true ∧ (⟨255, List.replicate 250 0, 0⟩ : Frame).lengthMatches = true := by decide +kernel

/-- An empty payload and the longest, and a checksum other than GV-1's. -/
theorem witness_HostBuiltFrameVerifies :
    ([] : List Byte).length ≤ 250 ∧ (List.replicate 250 (0 : Byte)).length ≤ 250 ∧
    State.reset.crcAcc = State.reset.cfg.crcInit ∧ (0 : Word) ≠ (hostFrame Config.tc 0x10 []).crc := by decide +kernel

/-- A frame whose checksum each of the five verified commands refuses, and the two that do not verify. -/
theorem witness_FailedVerificationOnlyNacks :
    (∀ code ∈ [0x10, 0x11, 0x12, 0x15, 0x16], frameSum State.reset code ⟨5, [], 0⟩ ≠ 0) ∧
    isNext (exec (.goToAddress gt1Frame) State.reset) = true ∧
    isNext (execUnknown 0x99 (inExec gv1 [1])) = true := by decide +kernel

theorem witness_ResponsesPerDispatchedFrame :
    (∀ i ∈ commands, ∃ s t : State, exec i s = .next t) ∧ ∃ s t : State, execUnknown 0x99 s = .next t :=
  ⟨witness_KnownCommandEmitsOneDiagFirst, inExec gv1 [1], _, isNext_eq (by decide +kernel) State.reset⟩

/-- A draw with low bit 0 and one with low bit 1. -/
theorem witness_UnknownCommandIsSilent : (0 : Word).getLsbD 0 = false ∧ (1 : Word).getLsbD 0 = true := by decide

theorem witness_InformationCommandsLeaveFlashAlone :
    isNext (exec (.getVersion gv1Frame) State.reset) = true ∧ isNext (exec (.getHelp gv1Frame) State.reset) = true ∧
    isNext (exec (.getChipId gv1Frame) State.reset) = true ∧
    isNext (exec (.goToAddress gv1Frame) State.reset) = true ∧
    isNext (execUnknown 0x99 (inExec gv1 [1])) = true := by decide +kernel

/-- The test configuration has the first corner; with SRAM_BASE = FLASH_END the intervals overlap, at the boundary. -/
theorem witness_AddrValidIsTheTwoRanges :
    Config.tc.sramUpper = .flashEnd ∧ Config.tc.flashEnd < Config.tc.sramBase ∧
    ({ Config.tc with sramBase := 0x0801FFFF } : Config).sramUpper = .flashEnd ∧
    ({ Config.tc with sramBase := 0x0801FFFF } : Config).sramBase ≤ Config.tc.flashEnd := by decide

theorem witness_FlashRequestsKeepTheirPreconditions :
    State.reset.flashCs = false ∧ ({ State.reset with flashCs := true } : State).flashCs = true := by decide

theorem witness_EveryCommandKeepsTheFlashBracket : State.reset.flashCs = false := rfl

/-- A wrong checksum, 65 pages and 64 pages (FE-5 and FE-4). -/
theorem witness_FlashEraseRunsOneEraseInTheBracket :
    State.reset.flashCs = false ∧
    frameSum State.reset 0x15 ⟨10, [0x40, 0x00, 0x80, 0x00, 0x08], 0⟩ ≠ 0 ∧
    frameSum State.reset 0x15 ⟨10, [0x41, 0x00, 0x80, 0x00, 0x08], 0x215B021E⟩ = 0x215B021E ∧
    State.reset.cfg.maxPages <
      (readEraseFields (Frame.bytes 0x15 ⟨10, [0x41, 0x00, 0x80, 0x00, 0x08], 0x215B021E⟩) State.reset).pCount ∧
    frameSum State.reset 0x15 ⟨10, [0x40, 0x00, 0x80, 0x00, 0x08], 0x36883343⟩ = 0x36883343 ∧
    (readEraseFields (Frame.bytes 0x15 ⟨10, [0x40, 0x00, 0x80, 0x00, 0x08], 0x36883343⟩) State.reset).pCount ≤
      State.reset.cfg.maxPages ∧
    (fe1Frame.bytes 0x15)[2]? = some 0x02 ∧ (fe1Frame.bytes 0x15)[3]? = some 0x00 ∧
    (fe1Frame.bytes 0x15)[4]? = some 0x80 ∧ (fe1Frame.bytes 0x15)[5]? = some 0x00 ∧
    (fe1Frame.bytes 0x15)[6]? = some 0x08 := by decide +kernel

/-- FE-1 with the answers 0 and 1, nothing having been erased; the same after an erase that failed, and after the page
at the base address has been programmed. -/
theorem witness_AnyEraseAnswerIsPossible :
    fe1Frame.payload = 0x02 :: 0x00 :: 0x80 :: 0x00 :: 0x08 :: [] ∧ (inExec fe1 [0]).flashCs = false ∧
    (∀ r : EraseRequest, .erase r 0 ∉ (inExec fe1 [0]).history) ∧
    (∀ r : EraseRequest, .erase r 0 ∉ [Event.erase (.byPage 0x08008000 2) 1]) ∧
    ({ inExec fe1 [0] with history := [.program 0x08008000 0x2211 true, .erase (.all 0x08008000) 0] } : State).history =
      .program (if word32 0x00 0x80 0x00 0x08 = Config.tc.massEraseSentinel ∨ Config.tc.eraseStart = .fixedBase
        then Config.tc.appBaseAddr else word32 0x00 0x80 0x00 0x08) 0x2211 true :: [.erase (.all 0x08008000) 0] ∧
    frameSum (inExec fe1 [0]) 0x15 fe1Frame = fe1Frame.crc ∧
    (0x02 : Byte) ≤ Config.tc.maxPages ∧ (inExec fe1 [0]).oracle = [0] ∧ (inExec fe1 [1]).oracle = [1] :=
  ⟨rfl, rfl, fun _ => List.not_mem_nil, fun r => by simp, by decide +kernel, by decide +kernel, by decide, rfl, rfl⟩

theorem witness_ErasingErasedPagesSucceeds :
    ∃ s t : State, fe1Frame.payload = 0x02 :: 0x00 :: 0x80 :: 0x00 :: 0x08 :: [] ∧ s.flashCs = false ∧
      s.crcAcc = s.cfg.crcInit ∧ frameSum s s.cfg.cmdFlashErase fe1Frame = fe1Frame.crc ∧
      0x02 ≤ s.cfg.maxPages ∧ exec (.flashErase fe1Frame) s = .next t ∧ t.eraseOutcome = .succeeded :=
  ⟨inExec fe1 [0], _, rfl, rfl, rfl, by decide +kernel, by decide, isNext_eq (by decide +kernel) State.reset,
    by decide +kernel⟩

/-- The block after FE-1 has succeeded. -/
def erasedOnce : State := nextOr State.reset (exec (.flashErase fe1Frame) (inExec fe1 [0]))

/-- FE-1, then an erase of other pages that fails, then a frame with FE-1's address and one page; and FE-7's address,
which is the sentinel. -/
theorem witness_ErasedPagesStayErasedAcrossErases :
    (∃ s t u : State, s.flashCs = false ∧ frameSum s 0x15 fe1Frame = fe1Frame.crc ∧ 0x02 ≤ s.cfg.maxPages ∧
      exec (.flashErase fe1Frame) s = .next t ∧ t.eraseOutcome = .succeeded ∧ u.cfg = t.cfg ∧ u.flashCs = false ∧
      frameSum u 0x15 fe1Frame = fe1Frame.crc ∧
      frameSum u 0x15 (hostFrame Config.tc 0x15 [0x01, 0x00, 0x80, 0x00, 0x08]) =
        (hostFrame Config.tc 0x15 [0x01, 0x00, 0x80, 0x00, 0x08]).crc ∧
      u.history = [.erase (.byPage 0x08010000 4) 1] ++ t.history) ∧
    (∀ e ∈ [Event.erase (.byPage 0x08010000 4) 1], ∃ (r : EraseRequest) (x : Word), e = .erase r x) ∧
    fe1Frame.payload = 0x02 :: 0x00 :: 0x80 :: 0x00 :: 0x08 :: [] ∧
    (hostFrame Config.tc 0x15 [0x01, 0x00, 0x80, 0x00, 0x08]).payload = 0x01 :: 0x00 :: 0x80 :: 0x00 :: 0x08 :: [] ∧
    (0x01 : Byte) ≤ 0x02 ∧ (0x01 : Byte) ≠ 0 ∧ word32 0xFF 0xFF 0xFF 0xFF = Config.tc.massEraseSentinel := by
  refine ⟨⟨inExec fe1 [0], erasedOnce,
    { erasedOnce with history := [.erase (.byPage 0x08010000 4) 1] ++ erasedOnce.history },
    rfl, by decide +kernel, by decide, isNext_eq (by decide +kernel) State.reset, by decide +kernel, by decide +kernel,
    by decide +kernel, by decide +kernel, by decide +kernel, rfl⟩, ?_, rfl, rfl, by decide, by decide, by decide⟩
  intro e he
  exact ⟨_, _, List.mem_singleton.1 he⟩

/-- FE-1 and FE-9a. -/
theorem witness_PageAddressIsIgnoredUnderFixedBase :
    fe1Frame.payload = 0x02 :: 0x00 :: 0x80 :: 0x00 :: 0x08 :: [] ∧
    (⟨10, [0x02, 0x00, 0x90, 0x00, 0x08], 0xE262760F⟩ : Frame).payload =
      0x02 :: 0x00 :: 0x90 :: 0x00 :: 0x08 :: [] ∧
    word32 0x00 0x80 0x00 0x08 ≠ Config.tc.massEraseSentinel ∧
    word32 0x00 0x90 0x00 0x08 ≠ Config.tc.massEraseSentinel ∧
    State.reset.cfg.eraseStart = .fixedBase ∧ State.reset.flashCs = false ∧
    frameSum State.reset 0x15 fe1Frame = fe1Frame.crc ∧
    frameSum State.reset 0x15 ⟨10, [0x02, 0x00, 0x90, 0x00, 0x08], 0xE262760F⟩ = 0xE262760F := by decide +kernel

/-- A wrong checksum, an invalid address (MW-2), a valid one (MW-1), and PROGRAM_STOP_ON_FAIL with it. -/
theorem witness_MemoryWriteProgramsInTheBracket :
    State.reset.flashCs = false ∧ frameSum State.reset 0x16 ⟨14, mw1Frame.payload, 0⟩ ≠ 0 ∧
    frameSum State.reset 0x16 ⟨12, [0, 0, 0, 0, 2, 0xAA, 0xBB], 0x6AA2D73F⟩ = 0x6AA2D73F ∧
    addrValid Config.tc
      (readWriteFields (Frame.bytes 0x16 ⟨12, [0, 0, 0, 0, 2, 0xAA, 0xBB], 0x6AA2D73F⟩) State.reset).wAddr = .invalid ∧
    frameSum State.reset 0x16 mw1Frame = mw1Frame.crc ∧
    addrValid Config.tc (readWriteFields (mw1Frame.bytes 0x16) State.reset).wAddr = .valid ∧
    ({ Config.tc with programStopOnFail := true } : Config).programStopOnFail = true ∧
    (mw1Frame.bytes 0x16)[2]? = some 0x00 ∧ (mw1Frame.bytes 0x16)[3]? = some 0x80 ∧
    (mw1Frame.bytes 0x16)[4]? = some 0x00 ∧ (mw1Frame.bytes 0x16)[5]? = some 0x08 ∧
    (mw1Frame.bytes 0x16)[6]? = some 0x04 ∧ (mw1Frame.bytes 0x16)[7]? = some 0x11 ∧
    (mw1Frame.bytes 0x16)[8]? = some 0x22 := by decide +kernel

/-- MW-2. -/
theorem witness_NoProgrammingOfAnInvalidAddress :
    addrValid Config.tc
      (readWriteFields (Frame.bytes 0x16 ⟨12, [0, 0, 0, 0, 2, 0xAA, 0xBB], 0x6AA2D73F⟩) State.reset).wAddr = .invalid ∧
    isNext (exec (.memoryWrite ⟨12, [0, 0, 0, 0, 2, 0xAA, 0xBB], 0x6AA2D73F⟩) State.reset) = true := by
  decide +kernel

/-- MW-1 and the address right after its last halfword, and MW-4, which has no halfword. -/
theorem witness_MemoryWriteChangesOnlyItsHalfwords :
    (storing (inExec mw1 [1, 1])).controller = .stores ∧
    isNext (exec (.memoryWrite mw1Frame) (storing (inExec mw1 [1, 1]))) = true ∧
    (readWriteFields (Frame.bytes 0x16 ⟨10, [0xFF, 0xFF, 0x01, 0x08, 0x00], 0xDF1EF19F⟩) State.reset).wLen < 2 ∧
    isNext (exec (.memoryWrite ⟨10, [0xFF, 0xFF, 0x01, 0x08, 0x00], 0xDF1EF19F⟩) State.reset) = true ∧
    ∀ k : Fin (halfCount (readWriteFields (mw1Frame.bytes 0x16) (inExec mw1 [1, 1])).wLen),
      0x08008004 ≠ (halfAddr (readWriteFields (mw1Frame.bytes 0x16) (inExec mw1 [1, 1])).wAddr k).toNat ∧
      0x08008004 ≠ (halfAddr (readWriteFields (mw1Frame.bytes 0x16) (inExec mw1 [1, 1])).wAddr k + 1).toNat := by
  decide +kernel

/-- MW-1: its four data bytes, the first and the last included, and it reports Passed. -/
theorem witness_PassedMemoryWriteStoresTheData :
    (storing (inExec mw1 [1, 1])).controller = .stores ∧
    mw1Frame.payload = 0x00 :: 0x80 :: 0x00 :: 0x08 :: 0x04 :: [0x11, 0x22, 0x33, 0x44] ∧
    ([0x11, 0x22, 0x33, 0x44] : List Byte).length = (0x04 : Byte).toNat ∧ (storing (inExec mw1 [1, 1])).flashCs = false ∧
    frameSum (storing (inExec mw1 [1, 1])) 0x16 mw1Frame = mw1Frame.crc ∧
    addrValid Config.tc (word32 0x00 0x80 0x00 0x08) = .valid ∧
    (nextOr State.reset (exec (.memoryWrite mw1Frame) (storing (inExec mw1 [1, 1])))).wStatus = .passed ∧
    0 < 2 * ((0x04 : Byte).toNat / 2) ∧ 3 < 2 * ((0x04 : Byte).toNat / 2) := by decide +kernel

/-- MW-1 with the answers true and false. -/
theorem witness_AnyProgramAnswersArePossible :
    mw1Frame.payload = 0x00 :: 0x80 :: 0x00 :: 0x08 :: 0x04 :: [0x11, 0x22, 0x33, 0x44] ∧
    ([0x11, 0x22, 0x33, 0x44] : List Byte).length = (0x04 : Byte).toNat ∧ (inExec mw1 [1, 0]).flashCs = false ∧
    frameSum (inExec mw1 [1, 0]) 0x16 mw1Frame = mw1Frame.crc ∧
    addrValid Config.tc (word32 0x00 0x80 0x00 0x08) = .valid ∧ Config.tc.programStopOnFail = false ∧
    [true, false].length = (0x04 : Byte).toNat / 2 ∧
    (inExec mw1 [1, 0]).oracle = [true, false].map (fun b => if b then 1 else 0) ++ [] := by decide +kernel

end Sys2Proof.Tests
end

section
/-! PROOFS. Byte order in a received frame (spec/20_memory.md, rules R32 to R34): where the payload and the checksum
word lie in the frame's bytes, what the multi-byte reads return inside the frame, and the two obligations. -/

namespace Sys2Proof

/-- Payload byte `i` is frame byte `i + 2`: the length byte and the command byte come first (rule R47). -/
theorem bytes_getElem?_payload (code : Byte) {f : Frame} {i : Nat} {b : Byte} (h : f.payload[i]? = some b) :
    (f.bytes code)[i + 2]? = some b := by
  obtain ⟨hi, -⟩ := List.getElem?_eq_some_iff.1 h
  simp [Frame.bytes, Frame.covered, List.getElem?_append_left hi, h]

/-- The checksum word's bytes follow the payload (rule R32). -/
theorem bytes_getElem?_crc (code : Byte) (f : Frame) (j : Nat) :
    (f.bytes code)[f.payload.length + j + 2]? = (wordBytes f.crc)[j]? := by
  simp [Frame.bytes, Frame.covered, List.getElem?_append_right]

/-- Every word is the little-endian word of the four bytes it is sent as. -/
theorem exists_wordBytes_eq_and_eq_word32 (a : Word) :
    ∃ b0 b1 b2 b3 : Byte, wordBytes a = [b0, b1, b2, b3] ∧ a = word32 b0 b1 b2 b3 :=
  ⟨_, _, _, _, rfl, (wordOfBytes_wordBytes a).symm⟩

namespace Machine

/-- `le16` of two bytes inside the frame is their halfword, and draws nothing. -/
theorem frameHalf_inside {bs : List Byte} {i : Nat} {b0 b1 : Byte} (h0 : bs[i]? = some b0)
    (h1 : bs[i + 1]? = some b1) (s : State) : frameHalf bs i s = (half16 b0 b1, s) := by
  simp [frameHalf, frameByte_inside h0, frameByte_inside h1]

/-- `le32` of four bytes inside the frame is their word, and draws nothing. -/
theorem frameWord_inside {bs : List Byte} {i : Nat} {b0 b1 b2 b3 : Byte} (h0 : bs[i]? = some b0)
    (h1 : bs[i + 1]? = some b1) (h2 : bs[i + 2]? = some b2) (h3 : bs[i + 3]? = some b3) (s : State) :
    frameWord bs i s = (word32 b0 b1 b2 b3, s) := by
  simp [frameWord, frameByte_inside h0, frameByte_inside h1, frameByte_inside h2, frameByte_inside h3]

/-- MEMORY_WRITE's field reads, when the payload holds all five field bytes (rules R33 and R55). -/
theorem readWriteFields_of_payload (code : Byte) {a0 a1 a2 a3 len : Byte} {data : List Byte} {f : Frame}
    (hp : f.payload = a0 :: a1 :: a2 :: a3 :: len :: data) (s : State) :
    readWriteFields (f.bytes code) s = { s with wAddr := word32 a0 a1 a2 a3, wLen := len } := by
  have h0 : (f.bytes code)[2]? = some a0 := bytes_getElem?_payload code (i := 0) (by simp [hp])
  have h1 : (f.bytes code)[3]? = some a1 := bytes_getElem?_payload code (i := 1) (by simp [hp])
  have h2 : (f.bytes code)[4]? = some a2 := bytes_getElem?_payload code (i := 2) (by simp [hp])
  have h3 : (f.bytes code)[5]? = some a3 := bytes_getElem?_payload code (i := 3) (by simp [hp])
  have h4 : (f.bytes code)[6]? = some len := bytes_getElem?_payload code (i := 4) (by simp [hp])
  simp [readWriteFields, frameWord_inside h0 h1 h2 h3, frameByte_inside h4]

/-- Halfword `k` of a MEMORY_WRITE, when the payload holds both its data bytes (rules R34 and R55). -/
theorem dataHalf_of_payload (code : Byte) {k : Nat} {d0 d1 : Byte} {f : Frame} (h0 : f.payload[2 * k + 5]? = some d0)
    (h1 : f.payload[2 * k + 6]? = some d1) (s : State) : dataHalf (f.bytes code) k s = (half16 d0 d1, s) := by
  rw [dataHalf, Nat.add_comm 7]
  exact frameHalf_inside (bytes_getElem?_payload code h0) (bytes_getElem?_payload code h1) s

end Machine
end Sys2Proof

namespace Sys2Proof.Proofs
open Sys2Proof.Machine

/-- Settles O13: the last four frame bytes are `wordBytes` of the checksum word, whose little-endian word it is. -/
theorem checksumFieldIsLittleEndian : Obligations.ChecksumFieldIsLittleEndian := by
  unfold Obligations.ChecksumFieldIsLittleEndian
  intro code f hm
  refine ⟨(Laws.EncodeLength.bytes_length code f).2 hm, ?_⟩
  have hlen : f.len.toNat = f.payload.length + 5 := by simpa [Frame.lengthMatches] using hm
  obtain ⟨b0, b1, b2, b3, hbytes, hcrc⟩ := exists_wordBytes_eq_and_eq_word32 f.crc
  have hat (j : Nat) : (f.bytes code)[f.payload.length + j + 2]? = [b0, b1, b2, b3][j]? :=
    hbytes ▸ bytes_getElem?_crc code f j
  rw [hlen]
  exact ⟨b0, b1, b2, b3, hat 0, hat 1, hat 2, hat 3, hcrc ▸ word32_toNat b0 b1 b2 b3, fun _ => rfl⟩

/-- Settles O15: payload byte `i` is frame byte `i + 2`, so the five fields and every data byte of the payload lie
inside the frame. -/
theorem writeFieldsAreReadLittleEndian : Obligations.WriteFieldsAreReadLittleEndian := by
  unfold Obligations.WriteFieldsAreReadLittleEndian
  intro code a0 a1 a2 a3 len data f s hp
  refine ⟨⟨_, readWriteFields_of_payload code hp s, word32_toNat a0 a1 a2 a3⟩, fun k d0 d1 h0 h1 => ?_⟩
  have hd (i : Nat) : f.payload[i + 5]? = data[i]? := by simp [hp]
  exact ⟨_, dataHalf_of_payload code ((hd _).trans h0) ((hd _).trans h1) s, half16_toNat d0 d1⟩

end Sys2Proof.Proofs
end

section
/-! PROOFS. The frame receiver (spec/40_frame_receiver.md): the length-byte step and a transport error (rules R68 and
R70), Verify() and its gate (rules R76 and R78), and the arms that do not verify. -/

namespace Sys2Proof

/-- RXLEN counts the command byte, the payload and the four checksum bytes (rules R46 and R47). -/
theorem Frame.len_toNat {f : Frame} (h : f.lengthMatches = true) : f.len.toNat = f.payload.length + 5 := by
  simpa [Frame.lengthMatches] using h

/-- The covered region is the length byte, the command byte and the payload (rule R48). -/
theorem Frame.covered_length (code : Byte) (f : Frame) : (f.covered code).length = f.payload.length + 2 := rfl

/-- The covered region is the first RXLEN-3 frame bytes (rule R48). -/
theorem Frame.bytes_take_covered (code : Byte) {f : Frame} (h : f.lengthMatches = true) :
    (f.bytes code).take (f.len.toNat - 3) = f.covered code :=
  List.take_left' (by rw [f.covered_length, Frame.len_toNat h]; rfl)

/-- Byte `j` of a word on the wire is its bits from `8 * j` on (rule R61). -/
theorem wordBytes_getElem? (a : Word) {j : Nat} (h : j < 4) :
    (wordBytes a)[j]? = some (BitVec.ofNat 8 (a.toNat / 2 ^ (8 * j))) := by
  rw [wordBytes_eq]
  match j, h with
  | 0, _ => simp
  | 1, _ => rfl
  | 2, _ => rfl
  | 3, _ => rfl

namespace Machine

/-! ### The receiver -/

theorem advance_waitLen {s : State} (h : s.phase = .waitLen) : advance s = .next (rxNext lengthByte s) := by
  simp only [advance, h]

theorem advance_waitBody {s : State} (h : s.phase = .waitBody) (hdue : s.rxcnt < s.rxlen) :
    advance s = .next (rxNext bodyByte s) := by
  simp only [advance, h, if_pos hdue]

theorem rxNext_byte (onByte : Byte → State → State) {s : State} {b : Byte} {rest : List RxEvent}
    (h : s.rxIn = .byte b :: rest) : rxNext onByte s = onByte b { s with rxIn := rest } := by
  simp only [rxNext, h]

theorem rxNext_error (onByte : Byte → State → State) {s : State} {rest : List RxEvent}
    (h : s.rxIn = .error :: rest) : rxNext onByte s = abort .transportFailure { s with rxIn := rest } := by
  simp only [rxNext, h]

/-- Rule R68: RXCNT is 0, so a body byte is due unless the length is 0, and then the frame is shorter than any
dispatchable one (rule R49). -/
theorem lengthByte_eq (b : Byte) (s : State) : lengthByte b s = { s with
    rxbuf := s.rxbuf.set 0 b, rxlen := b, rxcnt := 0, phase := if b = 0 then .waitLen else .waitBody } := by
  by_cases hb : b = 0
  · subst hb; rfl
  · have hdue : (0 : Byte) < b := (BitVec.pos_iff_ne_zero b).2 hb
    rw [lengthByte, awaitBody, if_pos hdue, if_neg hb]
    rfl

/-- Rules R70 and R121: the report of a transport failure is one NACK or nothing, by NACK_ON_RX_ERROR. -/
theorem abort_transportFailure (s : State) : abort .transportFailure s = { s with
    phase := .waitLen, evt := if s.cfg.nackOnRxError then s.evt ++ [.tx [s.cfg.nackMarker]] else s.evt } := by
  by_cases h : s.cfg.nackOnRxError = true <;> simp [abort, report, endCycle, emit, h]

/-! ### Verification and its gate -/

/-- Every command but GO_TO_ADDRESS runs a handler behind the gate of rule R78. -/
theorem exec_eq_verified (i : Instr) (s : State) (hi : ∀ f, i ≠ .goToAddress f) :
    ∃ handler, exec i s = verified (codeOf s.cfg i) i.frame s handler := by
  cases i with
  | goToAddress f => exact absurd rfl (hi f)
  | getVersion f => simp only [exec, execGetVersion]; exact ⟨_, rfl⟩
  | getHelp f => simp only [exec, execGetHelp]; exact ⟨_, rfl⟩
  | getChipId f => simp only [exec, execGetChipId]; exact ⟨_, rfl⟩
  | flashErase f => simp only [exec, execFlashErase]; exact ⟨_, rfl⟩
  | memoryWrite f => simp only [exec, execMemoryWrite]; exact ⟨_, rfl⟩

/-- Rule R78: whatever the handler is, it does not run when the checksum is not the fold. -/
theorem exec_of_frameSum_ne (i : Instr) {s : State} (hi : ∀ f, i ≠ .goToAddress f)
    (h : frameSum s (codeOf s.cfg i) i.frame ≠ i.frame.crc) :
    exec i s = .next (nackState (codeOf s.cfg i) i.frame s) := by
  obtain ⟨handler, hexec⟩ := exec_eq_verified i s hi
  rw [hexec, verified_eq, if_neg h]

/-- GO_TO_ADDRESS writes CMD and emits its Diag event, without verification (rule R97). -/
theorem exec_goToAddress (f : Frame) (s : State) : exec (.goToAddress f) s = .next { s with
    phase := .waitLen, cmd := s.cfg.cmdGoToAddress, evt := s.evt ++ [.diag s.cfg.cmdGoToAddress] } := rfl

/-- An Unknown frame writes CMD and draws whether it has a Diag event, without verification (rule R99). -/
theorem execUnknown_eq (code : Byte) (s : State) : execUnknown code s = .next { takeDraws s (drawBit s).2 with
    phase := .waitLen, cmd := code
    evt := if (drawBit s).1 then s.evt ++ [.diag code] else s.evt } := by
  have hd : SameDraws { s with cmd := code } s := ⟨rfl, rfl⟩
  unfold execUnknown
  rw [drawBit_congr hd]
  by_cases h : (drawBit s).1 = true <;> simp [h, abort, report, endCycle, emit, takeDraws]

end Machine
end Sys2Proof

namespace Sys2Proof.Proofs
open Sys2Proof.Machine

/-- Settles O31: the first RXLEN-3 frame bytes are the covered region, and the checksum word's four bytes follow
them. -/
theorem verifyComparesTheFoldedChecksum : Obligations.VerifyComparesTheFoldedChecksum := by
  unfold Obligations.VerifyComparesTheFoldedChecksum
  intro code f s hm
  have hlen := Frame.len_toNat hm
  have hmax : f.len.toNat < 256 := f.len.isLt
  refine ⟨by omega, by omega, f.crc, fun j hj => ?_, ?_⟩
  · have hat : f.len.toNat - 3 + j = f.payload.length + j + 2 := by omega
    rw [hat, bytes_getElem?_crc, wordBytes_getElem? _ hj]
  · rw [Frame.bytes_take_covered code hm]
    rfl

/-- Settles O22. -/
theorem lengthByteStartsAFrame : Obligations.LengthByteStartsAFrame := by
  unfold Obligations.LengthByteStartsAFrame
  intro s b rest hr hp hin
  rw [step_of_no_resets hr, advance_waitLen hp, rxNext_byte _ hin, lengthByte_eq]

/-- Settles O24: in both phases the receiver takes the event, and what it does on an error does not depend on the
phase. -/
theorem transportErrorAbortsTheCycle : Obligations.TransportErrorAbortsTheCycle := by
  unfold Obligations.TransportErrorAbortsTheCycle
  intro s rest hr hin hphase
  have htake : ∃ onByte, advance s = .next (rxNext onByte s) := by
    rcases hphase with hp | ⟨hp, hdue⟩
    · exact ⟨_, advance_waitLen hp⟩
    · exact ⟨_, advance_waitBody hp hdue⟩
  obtain ⟨onByte, hadv⟩ := htake
  rw [step_of_no_resets hr, hadv, rxNext_error _ hin, abort_transportFailure]

/-- Settles O33: the five commands pass through the gate, and the two other arms write none of Verify()'s registers. -/
theorem failedVerificationOnlyNacks : Obligations.FailedVerificationOnlyNacks := by
  unfold Obligations.FailedVerificationOnlyNacks
  intro f code s
  refine ⟨exec_of_frameSum_ne (.getVersion f) nofun, exec_of_frameSum_ne (.getHelp f) nofun,
    exec_of_frameSum_ne (.getChipId f) nofun, exec_of_frameSum_ne (.flashErase f) nofun,
    exec_of_frameSum_ne (.memoryWrite f) nofun, fun t ht => ?_⟩
  rcases ht with ht | ht
  · rw [exec_goToAddress] at ht
    cases ht
    exact ⟨rfl, rfl, rfl⟩
  · rw [execUnknown_eq] at ht
    cases ht
    exact ⟨rfl, rfl, rfl⟩

end Sys2Proof.Proofs
end

section
/-! PROOFS. The information commands (spec/41_info_commands.md): the bytes they send (rules R91, R93 and R95), the
answer of a handler that sends one ACK (rules R78 and R79), and that none of them reaches the flash port (rule R92). -/

namespace Sys2Proof

/-- The byte from bit `n` of `zext_48(id)` on, as a number (rule R95). -/
theorem zeroExtend_id_extractLsb' (id : BitVec 12) (n : Nat) :
    (id.zeroExtend 48).extractLsb' n 8 = BitVec.ofNat 8 (id.toNat / 2 ^ n) := by
  have hid : (id.zeroExtend 48).toNat = id.toNat := BitVec.toNat_setWidth_of_le (by decide)
  apply BitVec.eq_of_toNat_eq
  rw [BitVec.extractLsb'_toNat, hid, BitVec.toNat_ofNat, Nat.shiftRight_eq_div_pow]

/-- Rule R95: the id has 12 bits, so byte 1 holds its upper four and the bytes from 2 on are 0. -/
theorem idBytes_eq (id : BitVec 12) :
    idBytes id = [BitVec.ofNat 8 (id.toNat % 256), BitVec.ofNat 8 (id.toNat / 256), 0, 0, 0, 0] := by
  have hlow : BitVec.ofNat 8 (id.toNat % 256) = BitVec.ofNat 8 id.toNat := by
    apply BitVec.eq_of_toNat_eq
    simp
  have hzero {n : Nat} (hn : 12 ≤ n) : id.toNat / 2 ^ n = 0 :=
    Nat.div_eq_of_lt (id.isLt.trans_le (Nat.pow_le_pow_right (by decide) hn))
  simp only [idBytes, zeroExtend_id_extractLsb', hlow]
  rw [hzero (n := 16) (by decide), hzero (n := 24) (by decide), hzero (n := 32) (by decide),
    hzero (n := 40) (by decide)]
  simp

/-- HELP_LIST has six entries (rule R94). -/
theorem helpList_toList (c : Config) : c.helpList.toList =
    [c.helpList[0], c.helpList[1], c.helpList[2], c.helpList[3], c.helpList[4], c.helpList[5]] := by
  apply List.ext_getElem
  · simp
  · intro i hi _
    have hlt : i < 6 := by simpa using hi
    interval_cases i <;> rfl

namespace Machine

/-! ### The handlers that send one ACK -/

/-- A handler that sends one ACK and ends the cycle: all that GET_VERSION, GET_HELP and GET_CHIP_ID do behind the gate
of rule R78 (rules R91, R93 and R95). -/
def ackHandler (n : Byte) (reply : Config → List Byte) (s : State) : Result :=
  .next (endCycle (sendAck n (reply s.cfg) s))

/-- The reply of GET_VERSION (rule R91). -/
def versionReply (c : Config) : List Byte := [c.vendorId, c.verMajor, c.verMinor, c.verPatch]

/-- The reply of GET_HELP (rule R93). -/
def helpReply (c : Config) : List Byte := c.helpList.toList.take (helpCount c)

/-- The reply of GET_CHIP_ID (rule R95). -/
def chipIdReply (c : Config) : List Byte := (idBytes c.devId).take c.cidSendLen

theorem exec_getVersion (f : Frame) (s : State) :
    exec (.getVersion f) s = verified s.cfg.cmdGetVersion f s (ackHandler 4 versionReply) := rfl

theorem exec_getHelp (f : Frame) (s : State) :
    exec (.getHelp f) s = verified s.cfg.cmdGetHelp f s (ackHandler 6 helpReply) := rfl

theorem exec_getChipId (f : Frame) (s : State) :
    exec (.getChipId f) s = verified s.cfg.cmdGetChipId f s (ackHandler 6 chipIdReply) := rfl

/-- The two next states of a command with such a handler, by the checksum. -/
theorem verified_ackHandler (code n : Byte) (reply : Config → List Byte) (f : Frame) (s : State) :
    verified code f s (ackHandler n reply) = .next
      (if frameSum s code f = f.crc then doneState code f [.tx [s.cfg.ackMarker, n], .tx (reply s.cfg)] s
      else nackState code f s) := by
  rw [verified_eq]
  split
  · simp [ackHandler, verifiedState, doneState, endCycle, emit]
  · rfl

/-! ### The flash port stays untouched -/

/-- What a step that makes no flash request leaves alone: FLASH_CS and everything the model holds of the flash
controller; and none of its new events is one at the flash port (rules R25, R41 and R101). -/
structure NoFlashRequest (s t : State) : Prop where
  flashCs : t.flashCs = s.flashCs
  unlocked : t.unlocked = s.unlocked
  history : t.history = s.history
  flash : t.flash = s.flash
  events : ∃ es : List Event, t.evt = s.evt ++ es ∧ ∀ e ∈ es, e.isFlash = false

theorem nackState_noFlashRequest (code : Byte) (f : Frame) (s : State) : NoFlashRequest s (nackState code f s) :=
  ⟨rfl, rfl, rfl, rfl, _, rfl, by simp [Event.isFlash]⟩

theorem doneState_noFlashRequest (code : Byte) (f : Frame) (s : State) {es : List Event}
    (hes : ∀ e ∈ es, e.isFlash = false) : NoFlashRequest s (doneState code f es s) :=
  ⟨rfl, rfl, rfl, rfl, _, rfl, List.forall_mem_cons.2 ⟨rfl, hes⟩⟩

/-- Whatever the checksum is: a NACK or one ACK is all that is sent. -/
theorem noFlashRequest_of_ackHandler {code n : Byte} {reply : Config → List Byte} {f : Frame} {s t : State}
    (h : verified code f s (ackHandler n reply) = .next t) : NoFlashRequest s t := by
  rw [verified_ackHandler] at h
  cases h
  split
  · exact doneState_noFlashRequest code f s (by simp [Event.isFlash])
  · exact nackState_noFlashRequest code f s

theorem noFlashRequest_of_exec_goToAddress {f : Frame} {s t : State} (h : exec (.goToAddress f) s = .next t) :
    NoFlashRequest s t := by
  rw [exec_goToAddress] at h
  cases h
  exact ⟨rfl, rfl, rfl, rfl, _, rfl, by simp [Event.isFlash]⟩

/-- With its Diag event and without it. -/
theorem noFlashRequest_of_execUnknown {code : Byte} {s t : State} (h : execUnknown code s = .next t) :
    NoFlashRequest s t := by
  rw [execUnknown_eq] at h
  cases h
  refine ⟨rfl, rfl, rfl, rfl, if (drawBit s).1 then [.diag code] else [], ?_, ?_⟩
  · cases (drawBit s).1 <;> simp
  · cases (drawBit s).1 <;> simp [Event.isFlash]

end Machine
end Sys2Proof

namespace Sys2Proof.Proofs
open Sys2Proof.Machine

/-- Settles O40: three commands have a handler that sends one ACK behind the gate, and the two other arms send
nothing. -/
theorem informationCommandsLeaveFlashAlone : Obligations.InformationCommandsLeaveFlashAlone := by
  unfold Obligations.InformationCommandsLeaveFlashAlone
  intro f code s t h
  rw [exec_getVersion, exec_getHelp, exec_getChipId] at h
  have hn : NoFlashRequest s t := by
    rcases h with hVersion | hHelp | hChipId | hGoTo | hUnknown
    · exact noFlashRequest_of_ackHandler hVersion
    · exact noFlashRequest_of_ackHandler hHelp
    · exact noFlashRequest_of_ackHandler hChipId
    · exact noFlashRequest_of_exec_goToAddress hGoTo
    · exact noFlashRequest_of_execUnknown hUnknown
  exact ⟨hn.flashCs, hn.unlocked, hn.history, fun a => by rw [hn.flash], hn.events⟩

/-- Settles O35. -/
theorem getVersionReportsTheVersionBytes : Obligations.GetVersionReportsTheVersionBytes := by
  unfold Obligations.GetVersionReportsTheVersionBytes
  intro f s
  rw [exec_getVersion, verified_ackHandler, versionReply]

/-- Settles O36: the six entries of HELP_LIST, cut to HELP_SEND_COUNT. -/
theorem getHelpReportsTheCommandCodes : Obligations.GetHelpReportsTheCommandCodes := by
  unfold Obligations.GetHelpReportsTheCommandCodes
  intro f s
  rw [exec_getHelp, verified_ackHandler, helpReply, helpList_toList, helpCount]
  cases s.cfg.helpSendCount <;> rfl

/-- Settles O37: the six bytes of the id, cut to CID_SEND_LEN. -/
theorem getChipIdReportsTheDeviceId : Obligations.GetChipIdReportsTheDeviceId := by
  unfold Obligations.GetChipIdReportsTheDeviceId
  intro f s
  rw [exec_getChipId, verified_ackHandler, chipIdReply, idBytes_eq]

end Sys2Proof.Proofs
end

section
/-! PROOFS. The flash commands (spec/42_flash_commands.md): the address validator (rule R102), the operand fields inside
the frame (rule R55), the erase request (rule R110), the last status byte of a MEMORY_WRITE (rule R112), and the four
obligations. -/

namespace Sys2Proof.Machine

/-! ### The address validator -/

/-- Rule R102 on numbers. -/
theorem addrValid_eq_valid_iff (c : Config) (a : Word) : addrValid c a = .valid ↔
    (c.flashBase.toNat ≤ a.toNat ∧ a.toNat ≤ c.flashEnd.toNat) ∨
      (c.sramBase.toNat ≤ a.toNat ∧ a.toNat ≤ (sramLimit c).toNat) := by
  simp only [addrValid, BitVec.le_def, ite_eq_left_iff, reduceCtorEq, imp_false, not_not]

theorem sramLimit_of_flashEnd {c : Config} (h : c.sramUpper = .flashEnd) : sramLimit c = c.flashEnd := by
  simp only [sramLimit, h]

/-! ### Operand fields inside the frame -/

/-- P_COUNT is frame byte 2 (rule R55). -/
theorem readEraseFields_pCount {bs : List Byte} {b : Byte} (h : bs[2]? = some b) (s : State) :
    (readEraseFields bs s).pCount = b := by
  simp only [readEraseFields, frameByte_inside h]

/-- P_ADDR is the word at frame bytes 3 to 6 (rule R55). -/
theorem readEraseFields_pAddr {bs : List Byte} {b0 b1 b2 b3 : Byte} (h0 : bs[3]? = some b0) (h1 : bs[4]? = some b1)
    (h2 : bs[5]? = some b2) (h3 : bs[6]? = some b3) (s : State) :
    (readEraseFields bs s).pAddr = word32 b0 b1 b2 b3 := by
  simp only [readEraseFields, frameWord_inside h0 h1 h2 h3]

/-- W_ADDR is the word at frame bytes 2 to 5 (rule R55). -/
theorem readWriteFields_wAddr {bs : List Byte} {b0 b1 b2 b3 : Byte} (h0 : bs[2]? = some b0) (h1 : bs[3]? = some b1)
    (h2 : bs[4]? = some b2) (h3 : bs[5]? = some b3) (s : State) :
    (readWriteFields bs s).wAddr = word32 b0 b1 b2 b3 := by
  simp only [readWriteFields, frameWord_inside h0 h1 h2 h3]

/-- W_LEN is frame byte 6 (rule R55). -/
theorem readWriteFields_wLen {bs : List Byte} {b : Byte} (h : bs[6]? = some b) (s : State) :
    (readWriteFields bs s).wLen = b := by
  simp only [readWriteFields, frameByte_inside h]

/-- W_LEN >> 1 is W_LEN / 2 (rule R113). -/
theorem halfCount_eq (n : Byte) : halfCount n = n.toNat / 2 := by
  rw [halfCount, BitVec.toNat_ushiftRight, Nat.shiftRight_eq_div_pow, pow_one]

/-! ### The two commands -/

theorem exec_memoryWrite (f : Frame) (s : State) : exec (.memoryWrite f) s = execMemoryWrite f s := rfl

/-- Rule R110: the sentinel selects the mass erase, else ERASE_START selects the first page. -/
theorem eraseRequestOf_eq (c : Config) (count : Byte) (addr : Word) : eraseRequestOf c count addr =
    if addr = c.massEraseSentinel then .all c.appBaseAddr
    else .byPage (if c.eraseStart = .fixedBase then c.appBaseAddr else addr) count := by
  cases hs : c.eraseStart <;> simp only [eraseRequestOf, hs, reduceCtorEq, if_true, if_false]

/-- The end of a MEMORY_WRITE (rule R112): one status byte, whichever W_STATUS is. -/
theorem writeFinish_eq (s : State) : writeFinish s = { s with
    phase := .waitLen
    evt := s.evt ++ [.tx [if s.wStatus = .passed then s.cfg.stWriteOk else s.cfg.stWriteFail]] } := by
  cases hs : s.wStatus with
  | passed => simp only [writeFinish, hs, endCycle, sendPayload, emit, writeStatusByte, if_true]
  | failed => simp only [writeFinish, hs, abort, report, endCycle, sendPayload, emit, reduceCtorEq, if_false]

/-- Rule R116: with an invalid start address a MEMORY_WRITE makes no flash request, whatever the checksum is. -/
theorem noFlashRequest_of_exec_memoryWrite {f : Frame} {s t : State}
    (hc : addrValid s.cfg (readWriteFields (f.bytes s.cfg.cmdMemoryWrite) s).wAddr = .invalid)
    (h : exec (.memoryWrite f) s = .next t) : NoFlashRequest s t := by
  by_cases hv : frameSum s s.cfg.cmdMemoryWrite f = f.crc
  · rw [exec_memoryWrite, execMemoryWrite_invalid f s hv hc] at h
    cases h
    exact ⟨rfl, rfl, rfl, rfl, _, rfl, by simp [Event.isFlash]⟩
  · rw [exec_of_frameSum_ne (.memoryWrite f) nofun hv] at h
    cases h
    exact nackState_noFlashRequest _ f s

end Sys2Proof.Machine

namespace Sys2Proof.Proofs
open Sys2Proof.Machine

/-- Settles O44: the three cases are the checks of rule R108 in their order. -/
theorem flashEraseRunsOneEraseInTheBracket : Obligations.FlashEraseRunsOneEraseInTheBracket := by
  unfold Obligations.FlashEraseRunsOneEraseInTheBracket
  intro f s hs code q
  refine ⟨fun _ h => readEraseFields_pCount h s, fun _ _ _ _ h0 h1 h2 h3 => readEraseFields_pAddr h0 h1 h2 h3 s, ?_⟩
  by_cases hv : frameSum s code f = f.crc
  · by_cases hc : s.cfg.maxPages < q.pCount
    · exact ⟨_, execFlashErase_invalid f s hv hc, fun h => absurd hv h, fun _ _ => rfl,
        fun _ h => absurd hc (BitVec.not_lt.2 h)⟩
    · obtain ⟨t, hexec, ht⟩ := execFlashErase_valid f s hs hv q rfl hc
      refine ⟨t, hexec, fun h => absurd hv h, fun _ h => absurd h hc, fun _ _ => ?_⟩
      have hflash : t.flash = [] := by rw [ht]
      rw [← eraseRequestOf_eq, hflash]
      exact ht
  · exact ⟨_, exec_of_frameSum_ne (.flashErase f) nofun hv, fun _ => rfl, fun h => absurd h hv,
      fun h => absurd h hv⟩

/-- Settles O49: the three cases are the checks of rule R112 in their order; with a valid address the requests are
those of `programBracket_spec`. -/
theorem memoryWriteProgramsInTheBracket : Obligations.MemoryWriteProgramsInTheBracket := by
  unfold Obligations.MemoryWriteProgramsInTheBracket
  intro f s hs code q
  refine ⟨fun _ _ _ _ h0 h1 h2 h3 => readWriteFields_wAddr h0 h1 h2 h3 s, fun _ h => readWriteFields_wLen h s, ?_⟩
  by_cases hv : frameSum s code f = f.crc
  · cases hc : addrValid s.cfg q.wAddr with
    | invalid => exact ⟨_, execMemoryWrite_invalid f s hv hc, fun h => absurd hv h, fun _ _ => rfl, nofun⟩
    | valid =>
      obtain ⟨w, t, hexec, hw, hrun⟩ := execMemoryWrite_valid f s hs hv q rfl hc
      obtain ⟨t', -, reqs, hrun', -, -, ht, helem, hlen, hle, hokay, -⟩ :=
        programBracket_spec (f.bytes code) w (by rw [hw]; exact hs)
      obtain rfl : t = t' := Host.Outcome.next.inj (hrun.symm.trans hrun')
      subst hw
      rw [halfCount_eq] at hlen hle
      refine ⟨writeFinish t, hexec, fun h => absurd hv h, nofun,
        fun _ _ => ⟨reqs, ?_, helem, hlen, fun hstop => ⟨hle, hokay hstop⟩⟩⟩
      rw [writeFinish_eq, ht]
      simp [doneState, halvesDone, code]
  · exact ⟨_, exec_of_frameSum_ne (.memoryWrite f) nofun hv, fun _ => rfl, fun h => absurd h hv,
      fun h => absurd h hv⟩

/-- Settles O50: an invalid start address ends the command before the bracket, and a wrong checksum before that. -/
theorem noProgrammingOfAnInvalidAddress : Obligations.NoProgrammingOfAnInvalidAddress := by
  unfold Obligations.NoProgrammingOfAnInvalidAddress
  intro f s t hc h
  have hn : NoFlashRequest s t := noFlashRequest_of_exec_memoryWrite hc h
  exact ⟨hn.flash, hn.history, hn.flashCs, hn.unlocked, hn.events⟩

/-- Settles O41: where both ranges end at FLASH_END, the second is empty if SRAM_BASE lies above it, and together they
begin at the lower of the two bases. -/
theorem addrValidIsTheTwoRanges : Obligations.AddrValidIsTheTwoRanges := by
  unfold Obligations.AddrValidIsTheTwoRanges
  intro c a
  refine ⟨addrValid_eq_valid_iff c a, fun hu hlt => ?_, fun hu _ => ?_⟩
  · rw [addrValid_eq_valid_iff, sramLimit_of_flashEnd hu]
    have hempty : c.flashEnd.toNat < c.sramBase.toNat := hlt
    omega
  · rw [addrValid_eq_valid_iff, sramLimit_of_flashEnd hu]
    omega

end Sys2Proof.Proofs
end

section
/-! PROOFS. ERR after a FLASH_ERASE is the answer to its request, which depends on no register (rules R105, R106 and
R108); and page_address under ERASE_START = FixedBase (spec/70_reset_and_hazards.md, rule R156), with its obligation. -/

namespace Sys2Proof.Machine

/-! ### The answer to the erase request -/

/-- The answer depends on the state only through the requests so far and the draws to come (rules R105 and R106). -/
theorem eraseAnswer_fst_congr (r : EraseRequest) {s d : State} (hd : SameDraws s d) (hh : s.history = d.history) :
    (eraseAnswer r s).1 = (eraseAnswer r d).1 := by
  unfold eraseAnswer
  rw [hh]
  split
  · rfl
  · rw [draw_congr hd]

theorem flashErase_err {r : EraseRequest} {answer : Word} {s t : State} (h : flashErase r answer s = .next t) :
    t.err = s.err := by
  unfold flashErase at h
  split at h
  · cases h
    rfl
  · cases h

@[simp] theorem eraseFinish_err (s : State) : (eraseFinish s).err = s.err := by
  cases ho : outcomeOf s.err <;> simp [eraseFinish, ho, abort, report]

/-- What follows the page-count check of a FLASH_ERASE leaves the answer to its request in ERR (rules R108 and
R118). -/
theorem eraseBracket_finish_err {s t : State}
    (h : andThen (flashBracket eraseRequests s) (fun u => .next (eraseFinish u)) = .next t) (hs : s.flashCs = false) :
    t.err = (eraseAnswer (eraseRequestOf s.cfg s.pCount s.pAddr) s).1 := by
  obtain ⟨u, hu, he⟩ := eraseRequests_spec (emit .flashUnlock { s with flashCs := true, unlocked := true }) rfl
  rw [flashBracket_eq eraseRequests hs hu (by rw [he]; rfl)] at h
  cases h
  rw [eraseFinish_err]
  exact (flashErase_err hu).trans (eraseAnswer_fst_congr _ ⟨rfl, rfl⟩ rfl)

/-- ERR after a FLASH_ERASE within the page-count bound is the answer to its request, drawn after its field reads
(rules R54 and R108). -/
theorem execFlashErase_err {f : Frame} {s t q : State} (hs : s.flashCs = false)
    (hv : frameSum s s.cfg.cmdFlashErase f = f.crc) (hq : readEraseFields (f.bytes s.cfg.cmdFlashErase) s = q)
    (hc : ¬ s.cfg.maxPages < q.pCount) (h : execFlashErase f s = .next t) :
    t.err = (eraseAnswer (eraseRequestOf s.cfg q.pCount q.pAddr) q).1 := by
  have hread {d : State} (hd : SameDraws d s) := readEraseFields_congr (f.bytes s.cfg.cmdFlashErase) hd
  have hhist : q.history = s.history := by rw [← hq, hread SameDraws.rfl]
  simp only [execFlashErase, verified_eq, hv, if_true] at h
  rw [hread (d := verifiedState s.cfg.cmdFlashErase f s) ⟨rfl, rfl⟩, hq] at h
  simp only [pageBounds, verifiedState, hc, sendAckHeader_eq, emit, if_false] at h
  exact (eraseBracket_finish_err h hs).trans (eraseAnswer_fst_congr _ ⟨rfl, rfl⟩ hhist.symm)

/-! ### Two FLASH_ERASE frames -/

/-- FLASH_ERASE's field reads, when the payload holds all five field bytes (rules R33 and R55). -/
theorem readEraseFields_of_payload (code : Byte) {count a0 a1 a2 a3 : Byte} {extra : List Byte} {f : Frame}
    (hp : f.payload = count :: a0 :: a1 :: a2 :: a3 :: extra) (s : State) :
    readEraseFields (f.bytes code) s = { s with pCount := count, pAddr := word32 a0 a1 a2 a3 } := by
  have h0 : (f.bytes code)[2]? = some count := bytes_getElem?_payload code (i := 0) (by simp [hp])
  have h1 : (f.bytes code)[3]? = some a0 := bytes_getElem?_payload code (i := 1) (by simp [hp])
  have h2 : (f.bytes code)[4]? = some a1 := bytes_getElem?_payload code (i := 2) (by simp [hp])
  have h3 : (f.bytes code)[5]? = some a2 := bytes_getElem?_payload code (i := 3) (by simp [hp])
  have h4 : (f.bytes code)[6]? = some a3 := bytes_getElem?_payload code (i := 4) (by simp [hp])
  simp [readEraseFields, frameByte_inside h0, frameWord_inside h1 h2 h3 h4]

/-- Rule R110: under FixedBase every address but the sentinel gives the request at the base address. -/
theorem eraseRequestOf_fixedBase {c : Config} {addr : Word} (count : Byte) (hf : c.eraseStart = .fixedBase)
    (ha : addr ≠ c.massEraseSentinel) : eraseRequestOf c count addr = .byPage c.appBaseAddr count := by
  rw [eraseRequestOf_eq, if_neg ha, if_pos hf]

end Sys2Proof.Machine

namespace Sys2Proof.Proofs
open Sys2Proof.Machine

/-- Settles O48: both frames are checked against the bound with the same page count, and their requests are both
the one at the base address, so that they have the same answer. -/
theorem pageAddressIsIgnoredUnderFixedBase : Obligations.PageAddressIsIgnoredUnderFixedBase := by
  unfold Obligations.PageAddressIsIgnoredUnderFixedBase
  intro f g s count a0 a1 a2 a3 b0 b1 b2 b3 extra hpf hpg ha hb hfix hs hvf hvg
  have hqf := readEraseFields_of_payload s.cfg.cmdFlashErase hpf s
  have hqg := readEraseFields_of_payload s.cfg.cmdFlashErase hpg s
  by_cases hc : s.cfg.maxPages < count
  · exact ⟨_, _, execFlashErase_invalid f s hvf (by rwa [hqf]), execFlashErase_invalid g s hvg (by rwa [hqg]),
      rfl, rfl, rfl, rfl⟩
  · obtain ⟨t, hexecf, ht⟩ := execFlashErase_valid f s hs hvf _ hqf hc
    obtain ⟨u, hexecg, hu⟩ := execFlashErase_valid g s hs hvg _ hqg hc
    have hef := execFlashErase_err hs hvf hqf hc hexecf
    have heg := execFlashErase_err hs hvg hqg hc hexecg
    rw [eraseRequestOf_fixedBase count hfix ha] at ht hef
    rw [eraseRequestOf_fixedBase count hfix hb] at hu heg
    have herr : t.err = u.err := by
      rw [hef, heg]
      exact eraseAnswer_fst_congr _ ⟨rfl, rfl⟩ rfl
    refine ⟨t, u, hexecf, hexecg, ?_⟩
    rw [ht, hu, herr]
    exact ⟨rfl, rfl, rfl, rfl⟩

end Sys2Proof.Proofs
end

section
/-! PROOFS. What a command that completes does, said once: the shape of its events, and its effect on the state, from
which the invariant and the frame statements follow (rules R72, R78, R82, R92, R101 and R118). -/

namespace Sys2Proof.Machine

/-! ### The shape of a command's events -/

/-- The commands that make flash requests (rules R108 and R112). -/
def usesFlash : Instr → Bool
  | .getVersion _ => false
  | .getHelp _ => false
  | .getChipId _ => false
  | .goToAddress _ => false
  | .flashErase _ => true
  | .memoryWrite _ => true

/-- What follows a command's Diag event in the trace (rules R78, R79, R82 and R118). -/
inductive Handled (c : Config) : Instr → List Event → Prop where
  /-- GO_TO_ADDRESS has no handler. -/
  | silent (f : Frame) : Handled c (.goToAddress f) []
  /-- Verification failed. -/
  | nack (i : Instr) (hi : ∀ f, i ≠ .goToAddress f) : Handled c i [.tx [c.nackMarker]]
  /-- An information command's answer. -/
  | info (i : Instr) (hi : ∀ f, i ≠ .goToAddress f) (hf : usesFlash i = false) (n : Byte) (p : List Byte) :
      Handled c i [.tx [c.ackMarker, n], .tx p]
  /-- A flash command whose operands are refused. -/
  | refusal (i : Instr) (hf : usesFlash i = true) (p : Byte) : Handled c i [.tx [c.ackMarker, 1], .tx [p]]
  /-- A flash command's requests in their bracket. -/
  | bracket (i : Instr) (hf : usesFlash i = true) (reqs : List Event) (hreqs : ∀ e ∈ reqs, e.isArrayRequest = true)
      (p : Byte) : Handled c i (.tx [c.ackMarker, 1] :: .flashUnlock :: reqs ++ [.flashLock, .tx [p]])

/-- Erase and program requests keep the bracket open (rule R101). -/
theorem bracketRun_arrayRequests {reqs : List Event} (tail : List Event)
    (h : ∀ e ∈ reqs, e.isArrayRequest = true) : bracketRun true (reqs ++ tail) = bracketRun true tail := by
  induction reqs with
  | nil => rfl
  | cons e reqs ih =>
    obtain ⟨he, hreqs⟩ := List.forall_mem_cons.1 h
    cases e <;> simp_all [bracketRun, Event.isArrayRequest]

/-- Events away from the flash port leave the bracket as it is (rule R101). -/
theorem bracketRun_of_not_isFlash {es : List Event} (held : Bool) (h : ∀ e ∈ es, e.isFlash = false) :
    bracketRun held es = some held := by
  induction es with
  | nil => rfl
  | cons e es ih =>
    obtain ⟨he, hes⟩ := List.forall_mem_cons.1 h
    cases e <;> simp_all [bracketRun, Event.isFlash]

theorem Event.isArrayRequest_of_not_isFlash {e : Event} (h : e.isFlash = false) : e.isArrayRequest = false := by
  cases e <;> simp_all [Event.isFlash, Event.isArrayRequest]

theorem Event.not_isDiag_of_isArrayRequest {e : Event} (h : e.isArrayRequest = true) : e.isDiag = false := by
  cases e <;> simp_all [Event.isDiag, Event.isArrayRequest]

theorem Event.sent_of_isArrayRequest {e : Event} (h : e.isArrayRequest = true) : e.sent = none := by
  cases e <;> simp_all [Event.sent, Event.isArrayRequest]

/-- No handler emits a Diag event (rule R74). -/
theorem Handled.not_isDiag {c : Config} {i : Instr} {es : List Event} (h : Handled c i es) :
    ∀ e ∈ es, e.isDiag = false := by
  cases h with
  | silent | nack | info | refusal => simp [Event.isDiag]
  | bracket _ _ reqs hreqs p =>
    have hr : ∀ e ∈ reqs, e.isDiag = false := fun e he => Event.not_isDiag_of_isArrayRequest (hreqs e he)
    simpa [Event.isDiag, or_imp, forall_and] using hr

/-! ### The effect on the state -/

/-- What a step of the block's own that adds the events `es` to the trace may change outside the receive registers, the
working registers and the draws (rules R23, R25, R27, R29 and R101). -/
structure Effect (s t : State) (es : List Event) : Prop where
  cfg : t.cfg = s.cfg
  controller : t.controller = s.controller
  resets : t.resets = s.resets
  flashCs : t.flashCs = s.flashCs
  crcAcc : s.crcAcc = s.cfg.crcInit → t.crcAcc = s.cfg.crcInit
  evt : t.evt = s.evt ++ es
  bracketed : bracketRun false es = some false
  history : t.history = (es.filter Event.isArrayRequest).reverse ++ s.history
  flashWf : s.flash.wf → t.flash.wf
  flashKept : (∀ e ∈ es, e.isArrayRequest = false) → t.flash = s.flash
  flashUnknown : s.controller = .anyContents → (∃ e ∈ es, e.isArrayRequest = true) → t.flash = []

/-- What EXEC leaves of the receiver (rule R72). -/
structure KeepsReceiver (s t : State) : Prop where
  rxIn : t.rxIn = s.rxIn
  rxbuf : t.rxbuf = s.rxbuf
  rxlen : t.rxlen = s.rxlen
  rxcnt : t.rxcnt = s.rxcnt

theorem KeepsReceiver.trans {s t u : State} (h : KeepsReceiver s t) (k : KeepsReceiver t u) : KeepsReceiver s u :=
  ⟨k.rxIn.trans h.rxIn, k.rxbuf.trans h.rxbuf, k.rxlen.trans h.rxlen, k.rxcnt.trans h.rxcnt⟩

/-- The end of a command (rule R72). -/
structure EndsCycle (s t : State) : Prop extends KeepsReceiver s t where
  phase : t.phase = .waitLen

/-- A step whose events are all away from the flash port. -/
theorem Effect.of_noFlashRequest {s t : State} {es : List Event} (h : NoFlashRequest s t)
    (hes : ∀ e ∈ es, e.isFlash = false) (hevt : t.evt = s.evt ++ es) (hcfg : t.cfg = s.cfg)
    (hcontroller : t.controller = s.controller) (hresets : t.resets = s.resets)
    (hcrc : s.crcAcc = s.cfg.crcInit → t.crcAcc = s.cfg.crcInit) : Effect s t es where
  cfg := hcfg
  controller := hcontroller
  resets := hresets
  flashCs := h.flashCs
  crcAcc := hcrc
  evt := hevt
  bracketed := bracketRun_of_not_isFlash false hes
  history := by
    have hnone : es.filter Event.isArrayRequest = [] :=
      List.filter_eq_nil_iff.2 fun e he => by simp [Event.isArrayRequest_of_not_isFlash (hes e he)]
    rw [h.history, hnone]
    rfl
  flashWf := fun hw => h.flash ▸ hw
  flashKept := fun _ => h.flash
  flashUnknown := fun _ ⟨e, he, ha⟩ => by simp [Event.isArrayRequest_of_not_isFlash (hes e he)] at ha

theorem nackState_effect (code : Byte) (f : Frame) (s : State) :
    Effect s (nackState code f s) [.diag code, .tx [s.cfg.nackMarker]] :=
  .of_noFlashRequest (nackState_noFlashRequest code f s) (by simp [Event.isFlash]) rfl rfl rfl rfl fun _ => rfl

theorem doneState_effect (code : Byte) (f : Frame) (s : State) {es : List Event}
    (hes : ∀ e ∈ es, e.isFlash = false) : Effect s (doneState code f es s) (.diag code :: es) :=
  .of_noFlashRequest (doneState_noFlashRequest code f s hes) (List.forall_mem_cons.2 ⟨rfl, hes⟩) rfl rfl rfl rfl
    fun _ => rfl

/-- An Unknown frame's step (rule R99). -/
theorem execUnknown_effect {code : Byte} {s t : State} (h : execUnknown code s = .next t) :
    ∃ es : List Event, transmissions es = [] ∧ Effect s t es ∧ EndsCycle s t := by
  have hn := noFlashRequest_of_execUnknown h
  rw [execUnknown_eq] at h
  cases h
  cases hd : (drawBit s).1 with
  | false =>
    rw [hd] at hn
    exact ⟨[], rfl, .of_noFlashRequest hn (by simp) (by simp) rfl rfl rfl id, ⟨⟨rfl, rfl, rfl, rfl⟩, rfl⟩⟩
  | true =>
    rw [hd] at hn
    exact ⟨[.diag code], rfl, .of_noFlashRequest hn (by simp [Event.isFlash]) rfl rfl rfl rfl id,
      ⟨⟨rfl, rfl, rfl, rfl⟩, rfl⟩⟩

/-- The effects of two steps of a command, one after the other. -/
theorem Effect.trans {s t u : State} {es fs : List Event} (h : Effect s t es) (k : Effect t u fs) :
    Effect s u (es ++ fs) where
  cfg := k.cfg.trans h.cfg
  controller := k.controller.trans h.controller
  resets := k.resets.trans h.resets
  flashCs := k.flashCs.trans h.flashCs
  crcAcc := fun hc => by rw [k.crcAcc (by rw [h.crcAcc hc, h.cfg]), h.cfg]
  evt := by rw [k.evt, h.evt, List.append_assoc]
  bracketed := by rw [bracketRun_append, h.bracketed]; exact k.bracketed
  history := by rw [k.history, h.history, List.filter_append, List.reverse_append, List.append_assoc]
  flashWf := fun hw => k.flashWf (h.flashWf hw)
  flashKept := fun hnone => by
    obtain ⟨hes, hfs⟩ := List.forall_mem_append.1 hnone
    rw [k.flashKept hfs, h.flashKept hes]
  flashUnknown := fun hc hsome => by
    by_cases hfs : ∃ e ∈ fs, e.isArrayRequest = true
    · exact k.flashUnknown (h.controller.trans hc) hfs
    · have hnone : ∀ e ∈ fs, e.isArrayRequest = false := by simpa using hfs
      obtain ⟨e, he, ha⟩ := hsome
      have hes : e ∈ es := (List.mem_append.1 he).resolve_right fun hf => by simp [hnone e hf] at ha
      rw [k.flashKept hnone, h.flashUnknown hc ⟨e, hes, ha⟩]

/-! ### The commands one by one -/

/-- The critical section cannot be entered twice (rule R101). -/
theorem flashBracket_held (requests : State → Result) {s : State} (h : s.flashCs = true) :
    flashBracket requests s = .fault .flashBracket := by
  simp [flashBracket, flashUnlock, h]

/-- An information command with a handler: a NACK or one ACK (rules R78 and R79). -/
theorem handled_of_ackHandler {i : Instr} {n : Byte} {reply : Config → List Byte} {s t : State}
    (hi : ∀ f, i ≠ .goToAddress f) (hf : usesFlash i = false)
    (h : verified (codeOf s.cfg i) i.frame s (ackHandler n reply) = .next t) :
    ∃ es, Handled s.cfg i es ∧ Effect s t (.diag (codeOf s.cfg i) :: es) ∧ EndsCycle s t := by
  rw [verified_ackHandler] at h
  cases h
  split
  · exact ⟨_, .info i hi hf n _, doneState_effect _ _ s (by simp [Event.isFlash]),
      ⟨⟨rfl, rfl, rfl, rfl⟩, rfl⟩⟩
  · exact ⟨_, .nack i hi, nackState_effect _ _ s, ⟨⟨rfl, rfl, rfl, rfl⟩, rfl⟩⟩

/-- FLASH_ERASE within its bound needs the critical section to be free (rule R101). -/
theorem execFlashErase_held {f : Frame} {s : State} (hs : s.flashCs = true)
    (hv : frameSum s s.cfg.cmdFlashErase f = f.crc)
    (hc : ¬ s.cfg.maxPages < (readEraseFields (f.bytes s.cfg.cmdFlashErase) s).pCount) :
    execFlashErase f s = .fault .flashBracket := by
  simp only [execFlashErase, verified_eq, hv, if_true]
  rw [readEraseFields_congr (f.bytes s.cfg.cmdFlashErase) (s := verifiedState s.cfg.cmdFlashErase f s) (d := s)
    ⟨rfl, rfl⟩]
  simp only [pageBounds, verifiedState, hc, sendAckHeader_eq, emit, if_false]
  rw [flashBracket_held]
  · rfl
  · exact hs

/-- FLASH_ERASE, in the order of the checks of rule R109. -/
theorem handled_of_execFlashErase {f : Frame} {s t : State} (h : execFlashErase f s = .next t) :
    ∃ es, Handled s.cfg (.flashErase f) es ∧ Effect s t (.diag s.cfg.cmdFlashErase :: es) ∧ EndsCycle s t := by
  by_cases hv : frameSum s s.cfg.cmdFlashErase f = f.crc
  case neg =>
    obtain rfl := Host.Outcome.next.inj ((exec_of_frameSum_ne (.flashErase f) nofun hv).symm.trans h)
    exact ⟨_, .nack _ nofun, nackState_effect _ _ s, ⟨⟨rfl, rfl, rfl, rfl⟩, rfl⟩⟩
  by_cases hc : s.cfg.maxPages < (readEraseFields (f.bytes s.cfg.cmdFlashErase) s).pCount
  case pos =>
    rw [execFlashErase_invalid f s hv hc] at h
    cases h
    exact ⟨_, .refusal _ rfl _, .of_noFlashRequest ⟨rfl, rfl, rfl, rfl, _, rfl, by simp [Event.isFlash]⟩
      (by simp [Event.isFlash]) rfl rfl rfl rfl fun _ => rfl, ⟨⟨rfl, rfl, rfl, rfl⟩, rfl⟩⟩
  cases hs : s.flashCs with
  | true => rw [execFlashErase_held hs hv hc] at h; cases h
  | false =>
    obtain ⟨t', hexec, ht⟩ := execFlashErase_valid f s hs hv _ rfl hc
    obtain rfl := Host.Outcome.next.inj (h.symm.trans hexec)
    rw [ht]
    exact ⟨_, .bracket _ rfl [.erase _ _] (by simp [Event.isArrayRequest]) _,
      { cfg := rfl, controller := rfl, resets := rfl, flashCs := rfl, crcAcc := fun _ => rfl, evt := rfl
        bracketed := rfl, history := rfl, flashWf := fun _ => Memory.wf_nil
        flashKept := fun hnone => by simp [Event.isArrayRequest] at hnone
        flashUnknown := fun _ _ => rfl },
      ⟨⟨rfl, rfl, rfl, rfl⟩, rfl⟩⟩

/-- MEMORY_WRITE to a valid address needs the critical section to be free (rule R101). -/
theorem execMemoryWrite_held {f : Frame} {s : State} (hs : s.flashCs = true)
    (hv : frameSum s s.cfg.cmdMemoryWrite f = f.crc)
    (hc : addrValid s.cfg (readWriteFields (f.bytes s.cfg.cmdMemoryWrite) s).wAddr = .valid) :
    execMemoryWrite f s = .fault .flashBracket := by
  simp only [execMemoryWrite, verified_eq, hv, if_true]
  rw [readWriteFields_congr (f.bytes s.cfg.cmdMemoryWrite) (s := verifiedState s.cfg.cmdMemoryWrite f s) (d := s)
    ⟨rfl, rfl⟩]
  simp only [verifiedState, hc, sendAckHeader_eq, emit]
  rw [flashBracket_held]
  · rfl
  · exact hs

/-- The end of the critical section (rules R41 and R118). -/
def closeBracket (s : State) : State := emit .flashLock { s with flashCs := false, unlocked := false }

/-- What a bracket that completes ends with (rule R118). -/
theorem flashBracket_next {requests : State → Result} {s t u : State} (h : flashBracket requests s = .next t)
    (hu : requests (emit .flashUnlock { s with flashCs := true, unlocked := true }) = .next u) :
    t = closeBracket u := by
  unfold flashBracket flashUnlock at h
  split at h
  · cases h
  · rw [andThen_next, hu, andThen_next, flashLock] at h
    split at h
    · cases h
      rfl
    · cases h

/-- The loop's counter does not wrap (rule R113). -/
theorem halfCount_le (n : Byte) : halfCount n ≤ 127 := by
  have hn := n.isLt
  rw [halfCount_eq]
  omega

/-- Of a bracket's events only the requests concern the array (rule R25). -/
theorem filter_bracket {reqs : List Event} (h : ∀ e ∈ reqs, e.isArrayRequest = true) :
    (.flashUnlock :: reqs ++ [.flashLock] : List Event).filter Event.isArrayRequest = reqs := by
  simp [Event.isArrayRequest, List.filter_eq_self.2 h]

/-- The programming bracket's effect: its requests with their answers, and what they leave of the array. -/
theorem programBracket_effect (bs : List Byte) {s t : State} (hs : s.flashCs = false)
    (h : flashBracket (fun s4 => programLoop bs (halfCount s4.wLen) { s4 with wStatus := .passed, k := 0 }) s =
      .next t) :
    ∃ reqs : List Event, (∀ e ∈ reqs, e.isArrayRequest = true) ∧
      Effect s t (.flashUnlock :: reqs ++ [.flashLock]) ∧ KeepsReceiver s t := by
  obtain ⟨t', u, reqs, hrun, hloop, hflash, ht, helem, -, -, -, hnil⟩ := programBracket_spec bs s hs
  obtain rfl : t = t' := Host.Outcome.next.inj (h.symm.trans hrun)
  have hreqs : ∀ e ∈ reqs, e.isArrayRequest = true := by
    intro e he
    obtain ⟨j, hj⟩ := List.getElem?_of_mem he
    obtain ⟨v, ok, rfl, -⟩ := helem j e hj
    rfl
  have hevt : u.evt ++ [.flashLock] = s.evt ++ ([.flashUnlock] ++ reqs ++ [.flashLock]) := by
    have hlast : u.evt ++ [.flashLock] = t.evt := by
      rw [flashBracket_next h hloop]
      rfl
    rw [hlast, ht]
  refine ⟨reqs, hreqs,
    { cfg := by rw [ht], controller := by rw [ht], resets := by rw [ht], flashCs := by rw [ht]
      crcAcc := fun hc => by rw [ht]; exact hc
      evt := by rw [ht]; rfl
      bracketed := bracketRun_arrayRequests [.flashLock] hreqs
      history := by rw [filter_bracket hreqs, ht]
      flashWf := fun hw => ?_, flashKept := fun hnone => ?_, flashUnknown := fun hc hsome => ?_ },
    by rw [ht]; exact ⟨rfl, rfl, rfl, rfl⟩⟩
  · rw [hflash]
    exact (programLoop_flash bs _ _ u rfl ((Nat.zero_add _).trans_le (halfCount_le _)) hloop).1 hw
  · refine hnil (List.eq_nil_iff_forall_not_mem.2 fun e he => ?_)
    have hno := hnone e (by simp [he])
    simp [hreqs e he] at hno
  · rw [hflash]
    rcases programLoop_anyContents bs _ _ u (by rfl) (by exact hc) hloop with hu | hu
    · have hreqsNil : reqs = [] := by simpa [hu] using hevt
      simp [hreqsNil, Event.isArrayRequest] at hsome
    · exact hu

/-- The status byte at the end of a MEMORY_WRITE (rule R112). -/
theorem writeFinish_effect (s : State) : Effect s (writeFinish s)
    [.tx [if s.wStatus = .passed then s.cfg.stWriteOk else s.cfg.stWriteFail]] := by
  rw [writeFinish_eq]
  exact .of_noFlashRequest ⟨rfl, rfl, rfl, rfl, _, rfl, by simp [Event.isFlash]⟩ (by simp [Event.isFlash]) rfl rfl
    rfl rfl id

/-- MEMORY_WRITE, in the order of the checks of rule R112. -/
theorem handled_of_execMemoryWrite {f : Frame} {s t : State} (h : execMemoryWrite f s = .next t) :
    ∃ es, Handled s.cfg (.memoryWrite f) es ∧ Effect s t (.diag s.cfg.cmdMemoryWrite :: es) ∧ EndsCycle s t := by
  by_cases hv : frameSum s s.cfg.cmdMemoryWrite f = f.crc
  case neg =>
    obtain rfl := Host.Outcome.next.inj ((exec_of_frameSum_ne (.memoryWrite f) nofun hv).symm.trans h)
    exact ⟨_, .nack _ nofun, nackState_effect _ _ s, ⟨⟨rfl, rfl, rfl, rfl⟩, rfl⟩⟩
  cases hc : addrValid s.cfg (readWriteFields (f.bytes s.cfg.cmdMemoryWrite) s).wAddr with
  | invalid =>
    rw [execMemoryWrite_invalid f s hv hc] at h
    cases h
    exact ⟨_, .refusal _ rfl _, .of_noFlashRequest ⟨rfl, rfl, rfl, rfl, _, rfl, by simp [Event.isFlash]⟩
      (by simp [Event.isFlash]) rfl rfl rfl rfl fun _ => rfl, ⟨⟨rfl, rfl, rfl, rfl⟩, rfl⟩⟩
  | valid =>
    cases hs : s.flashCs with
    | true => rw [execMemoryWrite_held hs hv hc] at h; cases h
    | false =>
      obtain ⟨w, u, hexec, hw, hrun⟩ := execMemoryWrite_valid f s hs hv _ rfl hc
      obtain rfl := Host.Outcome.next.inj (h.symm.trans hexec)
      have hbegin : Effect s w [.diag s.cfg.cmdMemoryWrite, .tx [s.cfg.ackMarker, 1]] := by
        rw [hw]
        exact .of_noFlashRequest ⟨rfl, rfl, rfl, rfl, [_, _], List.append_assoc .., by simp [Event.isFlash]⟩
          (by simp [Event.isFlash]) (List.append_assoc ..) rfl rfl rfl fun _ => rfl
      obtain ⟨reqs, hreqs, hu, hkeeps⟩ := programBracket_effect _ (by rw [hw]; exact hs) hrun
      refine ⟨_, .bracket _ rfl reqs hreqs (if u.wStatus = .passed then u.cfg.stWriteOk else u.cfg.stWriteFail),
        ?_, ?_⟩
      · simpa using (hbegin.trans hu).trans (writeFinish_effect u)
      · have hstart : KeepsReceiver s w := by
          rw [hw]
          exact ⟨rfl, rfl, rfl, rfl⟩
        rw [writeFinish_eq]
        exact ⟨hstart.trans (hkeeps.trans ⟨rfl, rfl, rfl, rfl⟩), rfl⟩

/-- What every command that completes does. -/
theorem handled_of_exec {i : Instr} {s t : State} (h : exec i s = .next t) :
    ∃ es, Handled s.cfg i es ∧ Effect s t (.diag (codeOf s.cfg i) :: es) ∧ EndsCycle s t := by
  cases i with
  | getVersion f => exact handled_of_ackHandler (i := .getVersion f) nofun rfl (exec_getVersion f s ▸ h)
  | getHelp f => exact handled_of_ackHandler (i := .getHelp f) nofun rfl (exec_getHelp f s ▸ h)
  | getChipId f => exact handled_of_ackHandler (i := .getChipId f) nofun rfl (exec_getChipId f s ▸ h)
  | goToAddress f =>
    have hn := noFlashRequest_of_exec_goToAddress h
    rw [exec_goToAddress] at h
    cases h
    exact ⟨[], .silent f, .of_noFlashRequest hn (by simp [codeOf, Event.isFlash]) rfl rfl rfl rfl id,
      ⟨⟨rfl, rfl, rfl, rfl⟩, rfl⟩⟩
  | flashErase f => exact handled_of_execFlashErase h
  | memoryWrite f => exact handled_of_execMemoryWrite h

/-- From a free critical section every command completes (rules R30 and R101). -/
theorem exec_completes (i : Instr) {s : State} (hs : s.flashCs = false) : ∃ t : State, exec i s = .next t := by
  cases i with
  | getVersion f => exact ⟨_, (exec_getVersion f s).trans (verified_ackHandler ..)⟩
  | getHelp f => exact ⟨_, (exec_getHelp f s).trans (verified_ackHandler ..)⟩
  | getChipId f => exact ⟨_, (exec_getChipId f s).trans (verified_ackHandler ..)⟩
  | goToAddress f => exact ⟨_, exec_goToAddress f s⟩
  | flashErase f =>
    obtain ⟨-, -, t, ht, -⟩ := Proofs.flashEraseRunsOneEraseInTheBracket f s hs
    exact ⟨t, ht⟩
  | memoryWrite f =>
    obtain ⟨-, -, t, ht, -⟩ := Proofs.memoryWriteProgramsInTheBracket f s hs
    exact ⟨t, ht⟩

end Sys2Proof.Machine
end

section
/-! PROOFS. The statements about every command's events and effect. -/

namespace Sys2Proof.Machine

theorem Event.not_flashPort_of_isArrayRequest {e : Event} (h : e.isArrayRequest = true) :
    e ≠ .flashUnlock ∧ e ≠ .flashLock := by
  cases e <;> simp_all [Event.isArrayRequest]

/-- A command enters and leaves the critical section at most once (rule R118). -/
theorem Handled.count_bracket {c : Config} {i : Instr} {es : List Event} (h : Handled c i es) :
    es.count .flashUnlock ≤ 1 ∧ es.count .flashLock = es.count .flashUnlock := by
  cases h with
  | silent | nack | info | refusal => simp
  | bracket _ _ reqs hreqs p =>
    have hunlock : reqs.count .flashUnlock = 0 :=
      List.count_eq_zero.2 fun he => (Event.not_flashPort_of_isArrayRequest (hreqs _ he)).1 rfl
    have hlock : reqs.count .flashLock = 0 :=
      List.count_eq_zero.2 fun he => (Event.not_flashPort_of_isArrayRequest (hreqs _ he)).2 rfl
    simp [hunlock, hlock]

/-- Flash requests transmit nothing (rule R79). -/
theorem transmissions_bracket {reqs : List Event} (a p : List Byte) (h : ∀ e ∈ reqs, e.isArrayRequest = true) :
    transmissions (.tx a :: .flashUnlock :: reqs ++ [.flashLock, .tx p]) = [a, p] := by
  have hreqs : reqs.filterMap Event.sent = [] :=
    List.filterMap_eq_nil_iff.2 fun e he => Event.sent_of_isArrayRequest (h e he)
  simp [transmissions, Event.sent, hreqs, List.filterMap_cons]

/-- What the host receives for each command (rule R82). -/
theorem Handled.transmissions {c : Config} {i : Instr} {es : List Event} (h : Handled c i es) :
    (∃ f, i = .goToAddress f) ∧ transmissions es = [] ∨
    (∀ f, i ≠ .goToAddress f) ∧ (transmissions es = [[c.nackMarker]] ∨
      (∃ n p, transmissions es = [[c.ackMarker, n], p]) ∧
      (usesFlash i = true → ∃ p, transmissions es = [[c.ackMarker, 1], [p]])) := by
  have hne (hf : usesFlash i = true) (f : Frame) : i ≠ .goToAddress f := by
    rintro rfl
    cases hf
  cases h with
  | silent f => exact .inl ⟨⟨f, rfl⟩, rfl⟩
  | nack _ hi => exact .inr ⟨hi, .inl rfl⟩
  | info _ hi hf n p => exact .inr ⟨hi, .inr ⟨⟨n, p, rfl⟩, fun hf' => by simp [hf] at hf'⟩⟩
  | refusal _ hf p => exact .inr ⟨hne hf, .inr ⟨⟨1, [p], rfl⟩, fun _ => ⟨p, rfl⟩⟩⟩
  | bracket _ hf reqs hreqs p =>
    have htx := transmissions_bracket [c.ackMarker, 1] [p] hreqs
    exact .inr ⟨hne hf, .inr ⟨⟨1, [p], htx⟩, fun _ => ⟨p, htx⟩⟩⟩

theorem transmissions_diag_cons (code : Byte) (es : List Event) :
    transmissions (.diag code :: es) = transmissions es := rfl

end Sys2Proof.Machine

namespace Sys2Proof.Proofs
open Sys2Proof.Machine

/-- Settles O11: the array is only changed inside the bracket, and there every request makes it unknown. -/
theorem arrayRequestsLeaveAnyContents : Obligations.ArrayRequestsLeaveAnyContents := by
  unfold Obligations.ArrayRequestsLeaveAnyContents
  intro i s t es hc h hevt hsome a
  obtain ⟨fs, -, heffect, -⟩ := handled_of_exec h
  obtain rfl : es = _ := List.append_cancel_left (hevt.symm.trans heffect.evt)
  rw [heffect.flashUnknown hc hsome, Memory.read]

/-- Settles O30. -/
theorem knownCommandEmitsOneDiagFirst : Obligations.KnownCommandEmitsOneDiagFirst := by
  unfold Obligations.KnownCommandEmitsOneDiagFirst
  intro i s t h
  obtain ⟨es, hes, heffect, -⟩ := handled_of_exec h
  exact ⟨es, heffect.evt, hes.not_isDiag⟩

/-- Settles O34: one NACK, or the ACK header and the payload, of which the flash commands' is one status byte. -/
theorem responsesPerDispatchedFrame : Obligations.ResponsesPerDispatchedFrame := by
  unfold Obligations.ResponsesPerDispatchedFrame
  refine ⟨fun i s t es h hevt => ?_, fun code s t es h hevt => ?_⟩
  · obtain ⟨fs, hfs, heffect, -⟩ := handled_of_exec h
    obtain rfl : es = _ := List.append_cancel_left (hevt.symm.trans heffect.evt)
    rw [transmissions_diag_cons]
    rcases hfs.transmissions with ⟨⟨f, rfl⟩, hnone⟩ | ⟨hi, hone⟩
    · exact hnone
    · cases i with
      | getVersion f => exact hone.imp_right And.left
      | getHelp f => exact hone.imp_right And.left
      | getChipId f => exact hone.imp_right And.left
      | goToAddress f => exact absurd rfl (hi f)
      | flashErase f => exact hone.imp_right fun hack => hack.2 rfl
      | memoryWrite f => exact hone.imp_right fun hack => hack.2 rfl
  · obtain ⟨fs, hnone, heffect, -⟩ := execUnknown_effect h
    obtain rfl : es = _ := List.append_cancel_left (hevt.symm.trans heffect.evt)
    exact hnone

/-- Settles O43. -/
theorem everyCommandKeepsTheFlashBracket : Obligations.EveryCommandKeepsTheFlashBracket := by
  unfold Obligations.EveryCommandKeepsTheFlashBracket
  intro i s hs
  obtain ⟨t, h⟩ := exec_completes i hs
  obtain ⟨es, hes, heffect, -⟩ := handled_of_exec h
  obtain ⟨hunlock, hlock⟩ := hes.count_bracket
  exact ⟨t, _, h, heffect.evt, heffect.flashCs.trans hs, heffect.bracketed, by simpa using hunlock,
    by simpa using hlock⟩

end Sys2Proof.Proofs
end

section
/-! PROOFS. What a step can do: the receiver (rules R67 to R71), the dispatcher and the reset, and from it the frame of
every step and the invariant (rules R18, R22, R24, R27, R29, R30 and R142). -/

namespace Sys2Proof.Machine

/-! ### The receiver -/

theorem advance_exec {s : State} (h : s.phase = .exec) : advance s = dispatch s := by
  simp only [advance, h]

theorem rxNext_nil (onByte : Byte → State → State) {s : State} (h : s.rxIn = []) : rxNext onByte s = s := by
  simp only [rxNext, h]

/-- What the receiver does next with `cnt` of `len` body bytes received (rules R67 and R71). -/
def phaseAfter (cnt len : Byte) : Phase :=
  if cnt < len then .waitBody else if len.toNat < 5 then .waitLen else .exec

theorem phaseAfter_eq_waitBody_iff {cnt len : Byte} : phaseAfter cnt len = .waitBody ↔ cnt < len := by
  by_cases hdue : cnt < len
  · simp [phaseAfter, hdue]
  · by_cases hshort : len.toNat < 5 <;> simp [phaseAfter, hdue, hshort]

theorem phaseAfter_eq_exec_iff {cnt len : Byte} : phaseAfter cnt len = .exec ↔ len ≤ cnt ∧ 5 ≤ len.toNat := by
  by_cases hdue : cnt < len
  · simp [phaseAfter, hdue]
  · have hge : len ≤ cnt := BitVec.not_lt.1 hdue
    by_cases hshort : len.toNat < 5
    · simp [phaseAfter, hdue, hshort]
    · simp [phaseAfter, hdue, hshort, hge, Nat.le_of_not_lt hshort]

theorem phaseAfter_all (len : Byte) : phaseAfter len len = if len.toNat < 5 then .waitLen else .exec :=
  if_neg (BitVec.lt_irrefl len)

theorem awaitBody_eq (s : State) : awaitBody s = { s with phase := phaseAfter s.rxcnt s.rxlen } := by
  unfold awaitBody frameComplete phaseAfter
  split
  · rfl
  · split <;> rfl

/-- Rule R69. -/
theorem bodyByte_eq (b : Byte) (s : State) : bodyByte b s = { s with
    rxbuf := s.rxbuf.set (1 + s.rxcnt).toNat b (1 + s.rxcnt).isLt, rxcnt := s.rxcnt + 1
    phase := phaseAfter (s.rxcnt + 1) s.rxlen } := by
  rw [bodyByte, awaitBody_eq]
  rfl

/-- RXCNT does not wrap while bytes are due (rule R18). -/
theorem rxcnt_succ_toNat {s : State} (hdue : s.rxcnt < s.rxlen) : (s.rxcnt + 1).toNat = s.rxcnt.toNat + 1 := by
  have hlt : s.rxcnt.toNat < s.rxlen.toNat := hdue
  have hlen := s.rxlen.isLt
  rw [BitVec.toNat_add]
  exact Nat.mod_eq_of_lt (by simpa using by omega)

/-- A step that changes only the receive registers, PHASE and the input. -/
theorem Effect.of_receiver (s : State) (phase : Phase) (rxbuf : Vector Byte 256) (rxlen rxcnt : Byte)
    (rxIn : List RxEvent) :
    Effect s { s with phase := phase, rxbuf := rxbuf, rxlen := rxlen, rxcnt := rxcnt, rxIn := rxIn } [] :=
  .of_noFlashRequest ⟨rfl, rfl, rfl, rfl, [], by simp, by simp⟩ (by simp) (by simp) rfl rfl rfl id

theorem lengthByte_effect (b : Byte) (s : State) : Effect s (lengthByte b s) [] := by
  rw [lengthByte_eq]
  exact .of_receiver ..

theorem bodyByte_effect (b : Byte) (s : State) : Effect s (bodyByte b s) [] := by
  rw [bodyByte_eq]
  exact .of_receiver ..

/-- A transport error sends at most a NACK (rule R70). -/
theorem abort_transportFailure_effect (s : State) : ∃ es, Effect s (abort .transportFailure s) es := by
  rw [abort_transportFailure]
  cases s.cfg.nackOnRxError with
  | true =>
    exact ⟨[.tx [s.cfg.nackMarker]], .of_noFlashRequest ⟨rfl, rfl, rfl, rfl, _, rfl, by simp [Event.isFlash]⟩
      (by simp [Event.isFlash]) rfl rfl rfl rfl id⟩
  | false => exact ⟨[], .of_receiver s _ _ _ _ _⟩

/-- Whatever event it takes, the receiver sends at most a NACK (rule R70). -/
theorem rxNext_effect {onByte : Byte → State → State} (h : ∀ b s, Effect s (onByte b s) []) (s : State) :
    ∃ es, Effect s (rxNext onByte s) es := by
  match hin : s.rxIn with
  | [] =>
    rw [rxNext_nil onByte hin]
    exact ⟨[], .of_receiver ..⟩
  | .byte b :: rest =>
    rw [rxNext_byte onByte hin]
    exact ⟨[], Effect.trans (.of_receiver s _ _ _ _ rest) (h b _)⟩
  | .error :: rest =>
    rw [rxNext_error onByte hin]
    obtain ⟨es, hes⟩ := abort_transportFailure_effect { s with rxIn := rest }
    exact ⟨es, Effect.trans (.of_receiver s _ _ _ _ rest) hes⟩

/-! ### The step -/

theorem frameComplete_effect (s : State) : Effect s (frameComplete s) [] := by
  unfold frameComplete
  split
  · exact .of_receiver s _ _ _ _ _
  · exact .of_receiver s _ _ _ _ _

/-- What a dispatch that completes has run (rule R73). -/
theorem dispatch_cases {s t : State} (h : dispatch s = .next t) :
    (∃ i, exec i s = .next t) ∨ ∃ code, execUnknown code s = .next t := by
  unfold dispatch at h
  split at h
  · exact .inl ⟨_, h⟩
  · exact .inr ⟨_, h⟩
  all_goals cases h

theorem dispatch_effect {s t : State} (h : dispatch s = .next t) : (∃ es, Effect s t es) ∧ EndsCycle s t := by
  rcases dispatch_cases h with ⟨i, hi⟩ | ⟨code, hcode⟩
  · obtain ⟨es, -, heffect, hends⟩ := handled_of_exec hi
    exact ⟨⟨_, heffect⟩, hends⟩
  · obtain ⟨es, -, heffect, hends⟩ := execUnknown_effect hcode
    exact ⟨⟨_, heffect⟩, hends⟩

/-- What the block's own step does outside the receive registers (rule R16). -/
theorem advance_effect {s t : State} (h : advance s = .next t) : ∃ es, Effect s t es := by
  cases hp : s.phase with
  | waitLen =>
    obtain rfl := Host.Outcome.next.inj ((advance_waitLen hp).symm.trans h)
    exact rxNext_effect lengthByte_effect s
  | waitBody =>
    by_cases hdue : s.rxcnt < s.rxlen
    · obtain rfl := Host.Outcome.next.inj ((advance_waitBody hp hdue).symm.trans h)
      exact rxNext_effect bodyByte_effect s
    · simp only [advance, hp, if_neg hdue] at h
      cases h
      exact ⟨[], frameComplete_effect s⟩
  | exec => exact (dispatch_effect ((advance_exec hp).symm.trans h)).1

/-- Everything a step that answers a next state has been: the reset that was due, or the block's own step with the
resets still to come (rule R142). -/
theorem step_next_cases {s t : State} (h : step s = .next t) :
    (∃ rest, s.resets = 0 :: rest ∧ t = resetBlock { s with resets := rest }) ∨
    (s.resets.head? ≠ some 0 ∧ ∃ resets, advance { s with resets := resets } = .next t) := by
  rcases step_cases s with ⟨hr, hstep⟩ | ⟨rest, hr, hstep⟩ | ⟨n, rest, hr, hstep⟩
  · exact .inr ⟨by simp [hr], s.resets, hstep ▸ h⟩
  · exact .inl ⟨rest, hr, (Host.Outcome.next.inj (hstep.symm.trans h)).symm⟩
  · exact .inr ⟨by simp [hr], n :: rest, hstep ▸ h⟩

/-- The effect of a step at which no reset is due, up to the resets to come. -/
theorem step_effect {s t : State} (h : step s = .next t) (hdue : s.resets.head? ≠ some 0) :
    ∃ resets es, Effect { s with resets := resets } t es := by
  rcases step_next_cases h with ⟨rest, hr, -⟩ | ⟨-, resets, hadv⟩
  · simp [hr] at hdue
  · exact ⟨resets, advance_effect hadv⟩

/-! ### The frame in progress -/

/-- What the invariant says of the receive registers (rules R15, R18 and R71). -/
structure FrameInProgress (s : State) : Prop where
  bodyDue : s.phase = .waitBody → s.rxcnt < s.rxlen
  frameDone : s.phase = .exec → s.rxcnt = s.rxlen ∧ 5 ≤ s.rxlen.toNat
  lengthCopied : s.phase ≠ .waitLen → s.rxbuf[0] = s.rxlen

theorem frameInProgress_of_waitLen {s : State} (h : s.phase = .waitLen) : FrameInProgress s :=
  ⟨by simp [h], by simp [h], fun hne => absurd h hne⟩

/-- With at most RXLEN bytes received, RXBUF[0] being the length, the receiver goes on to a proper frame (rule R71). -/
theorem frameInProgress_awaitBody {s : State} (hle : s.rxcnt ≤ s.rxlen) (h0 : s.rxbuf[0] = s.rxlen) :
    FrameInProgress (awaitBody s) := by
  rw [awaitBody_eq]
  refine ⟨fun hp => phaseAfter_eq_waitBody_iff.1 hp, fun hp => ?_, fun _ => h0⟩
  obtain ⟨hge, hlong⟩ := phaseAfter_eq_exec_iff.1 hp
  exact ⟨BitVec.le_antisymm hle hge, hlong⟩

theorem frameInProgress_lengthByte (b : Byte) (s : State) : FrameInProgress (lengthByte b s) :=
  frameInProgress_awaitBody (BitVec.le_def.2 (Nat.zero_le _)) (by simp [bufferWrite])

theorem frameInProgress_bodyByte (b : Byte) {s : State} (hdue : s.rxcnt < s.rxlen) (h0 : s.rxbuf[0] = s.rxlen) :
    FrameInProgress (bodyByte b s) := by
  have hcnt := rxcnt_succ_toNat hdue
  have hlt : s.rxcnt.toNat < s.rxlen.toNat := hdue
  refine frameInProgress_awaitBody ?_ ?_
  · show (s.rxcnt + 1).toNat ≤ s.rxlen.toNat
    omega
  · have hne : (1 + s.rxcnt).toNat ≠ 0 := by rw [BitVec.add_comm, hcnt]; omega
    show (s.rxbuf.set (1 + s.rxcnt).toNat b (1 + s.rxcnt).isLt)[0] = s.rxlen
    rw [Vector.getElem_set_ne _ _ hne, h0]

/-- The receiver keeps the frame in progress, whatever event it takes. -/
theorem frameInProgress_rxNext {onByte : Byte → State → State} {s : State} (h : FrameInProgress s)
    (hbyte : ∀ b rest, FrameInProgress (onByte b { s with rxIn := rest })) : FrameInProgress (rxNext onByte s) := by
  match hin : s.rxIn with
  | [] => rwa [rxNext_nil onByte hin]
  | .byte b :: rest => exact rxNext_byte onByte hin ▸ hbyte b rest
  | .error :: rest => exact rxNext_error onByte hin ▸ frameInProgress_of_waitLen rfl

theorem frameInProgress_advance {s t : State} (h : FrameInProgress s) (hadv : advance s = .next t) :
    FrameInProgress t := by
  cases hp : s.phase with
  | waitLen =>
    obtain rfl := Host.Outcome.next.inj ((advance_waitLen hp).symm.trans hadv)
    exact frameInProgress_rxNext h fun b rest => frameInProgress_lengthByte b _
  | waitBody =>
    have hdue := h.bodyDue hp
    obtain rfl := Host.Outcome.next.inj ((advance_waitBody hp hdue).symm.trans hadv)
    exact frameInProgress_rxNext h fun b rest => frameInProgress_bodyByte b hdue (h.lengthCopied (by simp [hp]))
  | exec => exact frameInProgress_of_waitLen (dispatch_effect ((advance_exec hp).symm.trans hadv)).2.phase

/-! ### The invariant -/

theorem Inv.frame {s : State} (h : Inv s) : FrameInProgress s := ⟨h.bodyDue, h.frameDone, h.lengthCopied⟩

/-- The invariant does not depend on the resets to come. -/
theorem Inv.with_resets {s : State} (h : Inv s) (resets : List Nat) : Inv { s with resets := resets } where
  crcAtRest := h.crcAtRest
  lockAtRest := h.lockAtRest
  bodyDue := h.bodyDue
  frameDone := h.frameDone
  lengthCopied := h.lengthCopied
  bracketed := h.bracketed
  flashWf := h.flashWf

/-- The block's own step keeps the invariant. -/
theorem inv_of_advance {s t : State} (h : Inv s) (hadv : advance s = .next t) : Inv t := by
  obtain ⟨es, heffect⟩ := advance_effect hadv
  obtain ⟨hbody, hdone, hlen⟩ := frameInProgress_advance h.frame hadv
  exact
    { crcAtRest := by rw [heffect.crcAcc h.crcAtRest, heffect.cfg]
      lockAtRest := heffect.flashCs.trans h.lockAtRest
      bodyDue := hbody
      frameDone := hdone
      lengthCopied := hlen
      bracketed := by rw [heffect.evt, bracketRun_append, h.bracketed]; exact heffect.bracketed
      flashWf := heffect.flashWf h.flashWf }

/-- A reset keeps the invariant (rule R141). -/
theorem inv_resetBlock {s : State} (h : Inv s) : Inv (resetBlock s) where
  crcAtRest := by simp
  lockAtRest := rfl
  bodyDue := by simp
  frameDone := by simp
  lengthCopied := by simp
  bracketed := rfl
  flashWf := resetBlock_flash_wf h.flashWf

theorem inv_of_step {s t : State} (h : Inv s) (hstep : step s = .next t) : Inv t := by
  rcases step_next_cases hstep with ⟨rest, -, rfl⟩ | ⟨-, resets, hadv⟩
  · exact inv_resetBlock (h.with_resets rest)
  · exact inv_of_advance (h.with_resets resets) hadv

/-- In EXEC the frame is a command's or an Unknown one (rules R71 and R73). -/
theorem dispatch_of_inv {s : State} (h : Inv s) (hp : s.phase = .exec) :
    ∃ f : Frame, f.bytes s.rxbuf[1] = receivedBytes s ∧
      (∀ i, commandOf s.cfg s.rxbuf[1] f = some i → dispatch s = exec i s) ∧
      (commandOf s.cfg s.rxbuf[1] f = none → dispatch s = execUnknown s.rxbuf[1] s) := by
  obtain ⟨f, -, hbytes, hdecode⟩ := receivedBytes_decodes s h hp
  refine ⟨f, hbytes, fun i hi => ?_, fun hnone => ?_⟩
  · simp only [dispatch, hdecode, hi]
  · simp only [dispatch, hdecode, hnone]

/-- From the invariant the block's own step answers a next state (rule R30). -/
theorem advance_completes {s : State} (h : Inv s) : ∃ t, advance s = .next t := by
  cases hp : s.phase with
  | waitLen => exact ⟨_, advance_waitLen hp⟩
  | waitBody => exact ⟨_, advance_waitBody hp (h.bodyDue hp)⟩
  | exec =>
    obtain ⟨f, -, hcommand, hunknown⟩ := dispatch_of_inv h hp
    rw [advance_exec hp]
    cases hc : commandOf s.cfg s.rxbuf[1] f with
    | some i => exact hcommand i hc ▸ exec_completes i h.lockAtRest
    | none => exact hunknown hc ▸ ⟨_, execUnknown_eq ..⟩

theorem step_completes {s : State} (h : Inv s) : ∃ t, step s = .next t := by
  rcases step_cases s with ⟨-, hstep⟩ | ⟨rest, -, hstep⟩ | ⟨n, rest, -, hstep⟩
  · exact hstep ▸ advance_completes h
  · exact ⟨_, hstep⟩
  · exact hstep ▸ advance_completes (h.with_resets _)

end Sys2Proof.Machine

namespace Sys2Proof.Proofs
open Sys2Proof.Machine

/-- Settles O5: by the effect of the block's own step and the frame in progress, or by the reset's values. -/
theorem stepKeepsInvariant : Obligations.StepKeepsInvariant := by
  unfold Obligations.StepKeepsInvariant
  exact fun s t => inv_of_step

/-- Settles O6: in EXEC the buffer holds a dispatchable frame, and with FLASH_CS false every command completes. -/
theorem stepFromInvNeverStops : Obligations.StepFromInvNeverStops := by
  unfold Obligations.StepFromInvNeverStops
  exact fun s => step_completes

/-- Settles O4. -/
theorem resetStateMeetsInvariant : Obligations.ResetStateMeetsInvariant := by
  unfold Obligations.ResetStateMeetsInvariant
  have hpower (c : Config) : Inv (State.resetWith c) :=
    ⟨rfl, rfl, nofun, nofun, fun h => absurd rfl h, rfl, Memory.wf_nil⟩
  exact ⟨hpower _, hpower, fun s => inv_resetBlock⟩

/-- Settles O8. -/
theorem stepNeverChangesConfiguration : Obligations.StepNeverChangesConfiguration := by
  unfold Obligations.StepNeverChangesConfiguration
  intro s t h
  rcases step_next_cases h with ⟨rest, -, rfl⟩ | ⟨-, resets, hadv⟩
  · exact ⟨resetBlock_cfg _, resetBlock_controller _⟩
  · obtain ⟨es, heffect⟩ := advance_effect hadv
    exact ⟨heffect.cfg, heffect.controller⟩

/-- Settles O9. -/
theorem stepOnlyAppendsEvents : Obligations.StepOnlyAppendsEvents := by
  unfold Obligations.StepOnlyAppendsEvents
  intro s t h
  rcases step_next_cases h with ⟨rest, hr, rfl⟩ | ⟨-, resets, hadv⟩
  · exact .inr ⟨⟨rest, hr⟩, rfl⟩
  · obtain ⟨es, heffect⟩ := advance_effect hadv
    exact .inl ⟨es, heffect.evt⟩

/-- Settles O10. -/
theorem flashArrayChangesOnlyByRequests : Obligations.FlashArrayChangesOnlyByRequests := by
  unfold Obligations.FlashArrayChangesOnlyByRequests
  intro s t es hdue h hevt
  obtain ⟨resets, fs, heffect⟩ := step_effect h hdue
  obtain rfl : es = fs := List.append_cancel_left (hevt.symm.trans heffect.evt)
  exact ⟨heffect.history, heffect.flashKept⟩

/-- Settles O29: the end of every command leaves the receiver alone, and so does a reset. -/
theorem execTakesNoInputAndEndsTheCycle : Obligations.ExecTakesNoInputAndEndsTheCycle := by
  unfold Obligations.ExecTakesNoInputAndEndsTheCycle
  intro s t hp h
  rcases step_next_cases h with ⟨rest, -, rfl⟩ | ⟨-, resets, hadv⟩
  · exact ⟨rfl, resetBlock_rxIn _, resetBlock_rxbuf _, resetBlock_rxlen _, resetBlock_rxcnt _⟩
  · rw [advance_exec (by exact hp)] at hadv
    obtain ⟨⟨hin, hbuf, hlen, hcnt⟩, hphase⟩ := (dispatch_effect hadv).2
    exact ⟨hphase, hin, hbuf, hlen, hcnt⟩

end Sys2Proof.Proofs
end

section
/-! PROOFS. Decoding and encoding (spec/30_encoding.md): a frame's bytes decode to it and to nothing else (rules R46,
R47, R56 and R57), the bytes beyond a frame (rule R54), and the host's frames (rule R62). -/

namespace Sys2Proof

/-! ### The decoder -/

/-- The decoder takes apart the bytes of a well-formed frame, a command's or an Unknown one (rules R46 and R47). -/
theorem decode_bytes (c : Config) (code : Byte) {f : Frame} (rest : List Byte) (hm : f.lengthMatches = true) :
    (∀ i, commandOf c code f = some i → decode c (f.bytes code ++ rest) = .instr i rest) ∧
    (commandOf c code f = none → decode c (f.bytes code ++ rest) = .unknown code f rest) := by
  have hlen := Frame.len_toNat hm
  have htail : (f.payload ++ wordBytes f.crc).length = f.len.toNat - 1 := by
    rw [List.length_append, hlen]
    rfl
  have hbytes : f.bytes code ++ rest = f.len :: code :: ((f.payload ++ wordBytes f.crc) ++ rest) := by
    simp [Frame.bytes, Frame.covered]
  rw [hbytes, decode, if_neg (by simp [wordBytes]; omega), if_neg (by omega)]
  simp only [← htail, List.take_left', List.drop_left', frameOf_bytes]
  exact ⟨fun i h => by rw [h], fun h => by rw [h]⟩

/-- Whatever is not rejected is a well-formed frame's bytes, of a command or with a code that selects none (rules R46,
R47 and R49). -/
theorem decode_cases (c : Config) (bs : List Byte) : (∃ why, decode c bs = .rejected why) ∨
    ∃ code f rest, bs = f.bytes code ++ rest ∧ f.lengthMatches = true ∧
      ((∃ i, commandOf c code f = some i ∧ decode c bs = .instr i rest) ∨
        (commandOf c code f = none ∧ decode c bs = .unknown code f rest)) := by
  rcases decode_shape c bs with hrej | ⟨len, code, tail, rest, rfl, htail, hlen, hdec⟩
  · exact .inl hrej
  · obtain ⟨hparts, hm, hl⟩ := frameOf_tail len tail (by omega) (by omega)
    refine .inr ⟨code, frameOf len tail, rest, ?_, hm, ?_⟩
    · simp only [Frame.bytes, Frame.covered, hl, List.cons_append, hparts]
    · cases hcode : commandOf c code (frameOf len tail) with
      | some i => exact .inl ⟨i, rfl, by simp only [hdec, hcode]⟩
      | none => exact .inr ⟨rfl, by simp only [hdec, hcode]⟩

/-- Rule R57: a command byte is Unknown exactly if it is none of the six codes. -/
theorem commandOf_eq_none_iff (c : Config) (code : Byte) (f : Frame) : commandOf c code f = none ↔ code ∉ c.codes := by
  unfold commandOf Config.codes
  repeat' split
  all_goals simp_all

/-- The 256 bytes, each once. -/
def allBytes : List Byte := (List.range 256).map (BitVec.ofNat 8)

theorem allBytes_nodup : allBytes.Nodup := by
  refine List.Nodup.map_on (fun m hm n hn h => ?_) List.nodup_range
  have hmod : m % 2 ^ 8 = n % 2 ^ 8 := by simpa using congrArg BitVec.toNat h
  rw [List.mem_range] at hm hn
  omega

theorem mem_allBytes (b : Byte) : b ∈ allBytes :=
  List.mem_map.2 ⟨b.toNat, List.mem_range.2 b.isLt, BitVec.ofNat_toNat 8 b⟩

/-- As many bytes are outside a list without repetition as it leaves of the 256. -/
theorem length_filter_allBytes {codes : List Byte} (h : codes.Nodup) :
    (allBytes.filter (· ∉ codes)).length + codes.length = 256 := by
  have hperm : (allBytes.filter (· ∈ codes)).Perm codes :=
    (List.perm_ext_iff_of_nodup (allBytes_nodup.filter _) h).2 fun b => by simp [mem_allBytes]
  have hsplit := List.length_eq_length_filter_add (l := allBytes) (· ∈ codes)
  have hall : allBytes.length = 256 := by simp [allBytes]
  rw [hall, hperm.length_eq] at hsplit
  simpa [Nat.add_comm, eq_comm] using hsplit

end Sys2Proof

namespace Sys2Proof.Proofs
open Sys2Proof.Machine

/-- Settles O18. -/
theorem decodeOfEncodeIsTheInstruction : Obligations.DecodeOfEncodeIsTheInstruction := by
  unfold Obligations.DecodeOfEncodeIsTheInstruction
  intro c i rest hc hwf
  exact (decode_bytes c (codeOf c i) rest hwf).1 i (commandOf_codeOf c hc i)

/-- Settles O19: the decoder's answer names the frame whose bytes it read, and the command byte is the command's
code. -/
theorem encodeOfDecodeIsTheBytes : Obligations.EncodeOfDecodeIsTheBytes := by
  unfold Obligations.EncodeOfDecodeIsTheBytes
  intro c bs rest
  rcases decode_cases c bs with ⟨why, hrej⟩ | ⟨code, f, rest', hbs, hm, ⟨i, hcode, hdec⟩ | ⟨hcode, hdec⟩⟩
  · exact ⟨fun i h => by simp [hrej] at h, fun code f h => by simp [hrej] at h⟩
  · refine ⟨fun j h => ?_, fun code' f' h => by simp [hdec] at h⟩
    obtain ⟨rfl, rfl⟩ : i = j ∧ rest' = rest := by simpa [hdec] using h
    obtain ⟨hcodeOf, rfl⟩ := commandOf_some c code f i hcode
    exact ⟨hm, by rw [encode, hcodeOf, hbs]⟩
  · refine ⟨fun i h => by simp [hdec] at h, fun code' f' h => ?_⟩
    obtain ⟨rfl, rfl, rfl⟩ : code = code' ∧ f = f' ∧ rest' = rest := by simpa [hdec] using h
    exact ⟨hm, hbs.symm, (commandOf_eq_none_iff c code f).1 hcode⟩

/-- Settles O20. -/
theorem unknownCodesAreAllTheOthers : Obligations.UnknownCodesAreAllTheOthers := by
  unfold Obligations.UnknownCodesAreAllTheOthers
  intro c f
  refine ⟨fun code => commandOf_eq_none_iff c code f, fun hc => ?_⟩
  have hnone (n : Nat) : (commandOf c (BitVec.ofNat 8 n) f).isNone = decide (BitVec.ofNat 8 n ∉ c.codes) := by
    rw [Bool.eq_iff_iff, Option.isNone_iff_eq_none, commandOf_eq_none_iff, decide_eq_true_iff]
  have hcount := length_filter_allBytes hc
  rw [allBytes, List.filter_map, List.length_map] at hcount
  simp only [hnone]
  exact Nat.add_right_cancel (k := 250) (m := 6) hcount

/-- Settles O17. -/
theorem specFramesDecode : Obligations.SpecFramesDecode := by
  unfold Obligations.SpecFramesDecode
  decide

/-- Settles O14. -/
theorem eraseFieldsAreReadLittleEndian : Obligations.EraseFieldsAreReadLittleEndian := by
  unfold Obligations.EraseFieldsAreReadLittleEndian
  intro code count a0 a1 a2 a3 extra f s hp
  exact ⟨_, readEraseFields_of_payload code hp s, word32_toNat a0 a1 a2 a3⟩

/-- Settles O16: a well-formed frame has RXLEN + 1 bytes. -/
theorem bytesBeyondTheFrameAreDraws : Obligations.BytesBeyondTheFrameAreDraws := by
  unfold Obligations.BytesBeyondTheFrameAreDraws
  intro code f i s hm
  have hlen := (Laws.EncodeLength.bytes_length code f).2 hm
  have hbeyond (hi : f.len.toNat < i) : frameByte (f.bytes code) i s = drawByte s :=
    frameByte_beyond (List.getElem?_eq_none (by omega)) s
  refine ⟨fun hi => ?_, fun hi w ws ho => ?_, fun hi ho => ?_⟩
  · have hat := List.getElem?_eq_getElem (show i < (f.bytes code).length by omega)
    exact ⟨_, hat, frameByte_inside hat s⟩
  · rw [hbeyond hi, drawByte, draw, ho]
  · rw [hbeyond hi, drawByte, draw, ho]

/-- Settles O32: the checksum of the host's frame is the fold over its covered region, which does not hold the
checksum itself. -/
theorem hostBuiltFrameVerifies : Obligations.HostBuiltFrameVerifies := by
  unfold Obligations.HostBuiltFrameVerifies
  intro s code p hp hacc f
  have hm : f.lengthMatches = true := by
    have hlt : p.length + 5 < 256 := by omega
    simp [Frame.lengthMatches, f, hostFrame, Nat.mod_eq_of_lt hlt]
  have hsum : crcFold s.cfg.crcUnit s.crcAcc (f.covered code) = f.crc := by rw [hacc]; rfl
  refine ⟨hm, (Laws.EncodeLength.bytes_length code f).1, rfl, if_pos hsum, fun x hx => ?_⟩
  exact if_neg fun h => hx (h.symm.trans hsum)

end Sys2Proof.Proofs
end

section
/-! PROOFS. The receiver from the first byte to the dispatch (spec/40_frame_receiver.md, rules R67 to R73), and the end
of every session (spec/10_state.md, rule R30). -/

namespace Sys2Proof.Machine

/-! ### Receiving a frame -/

/-- A byte written at index `n` extends what lies before it. -/
theorem toList_set_take (v : Vector Byte 256) (b : Byte) {i n : Nat} (h : i < 256) (hn : i = n) :
    (v.set i b h).toList.take (n + 1) = v.toList.take n ++ [b] := by
  subst hn
  have hi : i < v.toList.length := by simpa using h
  rw [Vector.toList_set, List.take_add_one, List.getElem?_set_self hi, List.take_set_of_le le_rfl]
  rfl

/-- RXBUF's index for the next body byte does not wrap (rule R69). -/
theorem bodyIndex_toNat {s : State} (hdue : s.rxcnt < s.rxlen) : (1 + s.rxcnt).toNat = s.rxcnt.toNat + 1 := by
  rw [BitVec.add_comm, rxcnt_succ_toNat hdue]

theorem step_bodyByte {s : State} {b : Byte} {rest : List RxEvent} (hr : s.resets = []) (hp : s.phase = .waitBody)
    (hdue : s.rxcnt < s.rxlen) (hin : s.rxIn = .byte b :: rest) :
    step s = .next { s with
      rxIn := rest, rxbuf := s.rxbuf.set (1 + s.rxcnt).toNat b (1 + s.rxcnt).isLt, rxcnt := s.rxcnt + 1
      phase := phaseAfter (s.rxcnt + 1) s.rxlen } := by
  rw [step_of_no_resets hr, advance_waitBody hp hdue, rxNext_byte _ hin, bodyByte_eq]

theorem phaseAfter_succ {s : State} (hdue : s.rxcnt < s.rxlen) : phaseAfter (s.rxcnt + 1) s.rxlen =
    if s.rxcnt.toNat + 1 < s.rxlen.toNat then .waitBody else if s.rxlen.toNat < 5 then .waitLen else .exec := by
  simp only [phaseAfter, BitVec.lt_def, rxcnt_succ_toNat hdue]

/-- Receiving the rest of a frame of which RXCNT bytes have come (rules R69 and R71). -/
theorem run_body (body : List Byte) (rest : List RxEvent) : ∀ s : State, s.resets = [] →
    s.phase = phaseAfter s.rxcnt s.rxlen → s.rxcnt.toNat + body.length = s.rxlen.toNat →
    s.rxIn = body.map .byte ++ rest →
    ∃ t : State, core.run body.length s = .next t ∧
      t = { s with rxIn := rest, rxbuf := t.rxbuf, rxcnt := s.rxlen, phase := phaseAfter s.rxlen s.rxlen } ∧
      receivedBytes t = s.rxbuf.toList.take (s.rxcnt.toNat + 1) ++ body := by
  induction body with
  | nil =>
    intro s hr hp hlen hin
    obtain hfull : s.rxcnt = s.rxlen := BitVec.eq_of_toNat_eq hlen
    refine ⟨s, rfl, ?_, by rw [receivedBytes, hfull, List.append_nil]⟩
    rw [hfull] at hp
    cases s
    simp_all
  | cons b body ih =>
    intro s hr hp hlen hin
    rw [List.length_cons] at hlen
    have hdue : s.rxcnt < s.rxlen := BitVec.lt_def.2 (by omega)
    have hstep := step_bodyByte hr (hp.trans (phaseAfter_eq_waitBody_iff.2 hdue)) hdue hin
    have hcnt := rxcnt_succ_toNat hdue
    obtain ⟨t, hrun, ht, hbytes⟩ := ih { s with
      rxIn := body.map .byte ++ rest, rxcnt := s.rxcnt + 1, phase := phaseAfter (s.rxcnt + 1) s.rxlen
      rxbuf := s.rxbuf.set (1 + s.rxcnt).toNat b (1 + s.rxcnt).isLt } hr rfl (by simp only [hcnt]; omega) rfl
    refine ⟨t, (run_succ _ hstep).trans hrun, ht, ?_⟩
    rw [hbytes, hcnt, toList_set_take _ _ _ (bodyIndex_toNat hdue), List.append_assoc]
    rfl

/-- Receiving a whole frame (rules R67 to R71). -/
theorem run_frame {s : State} {len : Byte} {body : List Byte} {rest : List RxEvent} (hr : s.resets = [])
    (hp : s.phase = .waitLen) (hlen : body.length = len.toNat) (hin : s.rxIn = (len :: body).map .byte ++ rest) :
    ∃ t : State, core.run (len.toNat + 1) s = .next t ∧
      t = { s with rxIn := rest, rxbuf := t.rxbuf, rxlen := len, rxcnt := len, phase := phaseAfter len len } ∧
      receivedBytes t = len :: body := by
  rw [List.map_cons, List.cons_append] at hin
  have hstep : step s = .next (lengthByte len { s with rxIn := body.map .byte ++ rest }) := by
    rw [step_of_no_resets hr, advance_waitLen hp, rxNext_byte _ hin]
  rw [lengthByte, awaitBody_eq] at hstep
  obtain ⟨t, hrun, ht, hbytes⟩ := run_body body rest
    { bufferWrite 0 len s with
      rxIn := body.map .byte ++ rest, rxlen := len, rxcnt := 0, phase := phaseAfter 0 len }
    hr rfl ((Nat.zero_add _).trans hlen) rfl
  rw [hlen] at hrun
  refine ⟨t, (run_succ _ hstep).trans hrun, ht, ?_⟩
  rw [hbytes, bufferWrite, toList_set_take _ _ _ rfl]
  rfl

/-! ### Running a session to its end -/

/-- The block waits for input that will not come. -/
def Waiting (s : State) : Prop := s.rxIn = [] ∧ s.phase ≠ .exec

/-- A bound on the steps until the block waits: two for an RX event that completes a frame, one for a reset, and one
for the command in execution. -/
def budget (s : State) : Nat := 2 * s.rxIn.length + s.resets.length + if s.phase = .exec then 1 else 0

theorem budget_le (s : State) : budget s ≤ 2 * s.rxIn.length + s.resets.length + 1 := by
  unfold budget
  split <;> omega

/-- Taking an event uses up more than a command to execute can cost. -/
theorem rxNext_budget {onByte : Byte → State → State} (honByte : ∀ b s, (onByte b s).rxIn = s.rxIn)
    (heffect : ∀ b s, Effect s (onByte b s) []) {s : State} (hp : s.phase ≠ .exec) :
    Waiting (rxNext onByte s) ∨ ¬ Waiting s ∧ budget (rxNext onByte s) < budget s := by
  match hin : s.rxIn with
  | [] => exact .inl (by rw [rxNext_nil onByte hin]; exact ⟨hin, hp⟩)
  | .byte b :: rest =>
    have hle := budget_le (onByte b { s with rxIn := rest })
    rw [honByte, (heffect b _).resets] at hle
    refine .inr ⟨fun hw => by simp [Waiting, hin] at hw, ?_⟩
    rw [rxNext_byte onByte hin, budget.eq_def s, hin, List.length_cons]
    simp only at hle
    omega
  | .error :: rest =>
    refine .inr ⟨fun hw => by simp [Waiting, hin] at hw, ?_⟩
    rw [rxNext_error onByte hin, abort_transportFailure]
    simp [budget, hin]
    omega

theorem advance_budget {s t : State} (h : Inv s) (hadv : advance s = .next t) :
    Waiting t ∨ ¬ Waiting s ∧ budget t < budget s := by
  cases hp : s.phase with
  | waitLen =>
    obtain rfl := Host.Outcome.next.inj ((advance_waitLen hp).symm.trans hadv)
    exact rxNext_budget (fun b s => by rw [lengthByte_eq]) lengthByte_effect (by simp [hp])
  | waitBody =>
    obtain rfl := Host.Outcome.next.inj ((advance_waitBody hp (h.bodyDue hp)).symm.trans hadv)
    exact rxNext_budget (fun b s => by rw [bodyByte_eq]) bodyByte_effect (by simp [hp])
  | exec =>
    obtain ⟨⟨es, heffect⟩, hends⟩ := dispatch_effect ((advance_exec hp).symm.trans hadv)
    refine .inr ⟨fun hw => hw.2 hp, ?_⟩
    simp [budget, heffect.resets, hends.rxIn, hends.phase, hp]

/-- A step comes closer to the end of the session, or the block waits. -/
theorem step_budget {s t : State} (h : Inv s) (hstep : step s = .next t) :
    Waiting t ∨ ¬ Waiting s ∧ budget t < budget s := by
  rcases step_cases s with ⟨-, heq⟩ | ⟨rest, hr, heq⟩ | ⟨n, rest, hr, heq⟩
  · exact advance_budget h (heq.symm.trans hstep)
  · obtain rfl := Host.Outcome.next.inj (heq.symm.trans hstep)
    by_cases hw : Waiting s
    · exact .inl ⟨by simpa using hw.1, by simp⟩
    · refine .inr ⟨hw, ?_⟩
      simp [budget, hr]
      omega
  · have hadv := advance_budget (h.with_resets (n :: rest)) (heq.symm.trans hstep)
    have hsame : budget { s with resets := n :: rest } = budget s := by simp [budget, hr]
    rwa [hsame] at hadv

/-- A run of enough steps ends with the block waiting. -/
theorem run_ends_waiting (k : Nat) : ∀ s : State, Inv s → Waiting s ∨ budget s ≤ k →
    ∃ t : State, core.run k s = .next t ∧ Waiting t ∧ Inv t := by
  induction k with
  | zero =>
    intro s h hk
    refine ⟨s, rfl, hk.elim id fun hzero => ?_, h⟩
    obtain ⟨⟨hin, -⟩, hp⟩ : (s.rxIn = [] ∧ s.resets = []) ∧ s.phase ≠ .exec := by simpa [budget] using hzero
    exact ⟨hin, hp⟩
  | succ k ih =>
    intro s h hk
    obtain ⟨t, hstep⟩ := step_completes h
    rw [run_succ k hstep]
    refine ih t (inv_of_step h hstep) ?_
    rcases step_budget h hstep with hw | ⟨hw, hlt⟩
    · exact .inl hw
    · have hle := hk.resolve_left hw
      exact .inr (by omega)

end Sys2Proof.Machine

namespace Sys2Proof.Proofs
open Sys2Proof.Machine

/-- Settles O12: `budget` bounds the steps to the end, and a block that waits stays waiting whatever resets come. -/
theorem everySessionEndsWaiting : Obligations.EverySessionEndsWaiting := by
  unfold Obligations.EverySessionEndsWaiting
  intro s h
  obtain ⟨t, hrun, ⟨hin, hp⟩, hinv⟩ := run_ends_waiting _ s h (.inr (budget_le s))
  refine ⟨t, hrun, hin, hinv, ?_⟩
  cases htp : t.phase with
  | waitLen => exact .inl rfl
  | waitBody => exact .inr rfl
  | exec => exact absurd htp hp

/-- Settles O21. -/
theorem waitingWithoutInputChangesNothing : Obligations.WaitingWithoutInputChangesNothing := by
  unfold Obligations.WaitingWithoutInputChangesNothing
  intro s hr hin hphase
  rcases hphase with hp | ⟨hp, hdue⟩
  · rw [step_of_no_resets hr, advance_waitLen hp, rxNext_nil _ hin]
  · rw [step_of_no_resets hr, advance_waitBody hp hdue, rxNext_nil _ hin]

/-- Settles O23. -/
theorem bodyByteExtendsTheFrame : Obligations.BodyByteExtendsTheFrame := by
  unfold Obligations.BodyByteExtendsTheFrame
  intro s b rest hr hp hdue hin
  refine ⟨(1 + s.rxcnt).toFin, (bodyIndex_toNat hdue).trans (Nat.add_comm ..), ?_⟩
  rw [step_bodyByte hr hp hdue hin, phaseAfter_succ hdue]
  rfl

/-- Settles O25. -/
theorem shortFrameIsDiscarded : Obligations.ShortFrameIsDiscarded := by
  unfold Obligations.ShortFrameIsDiscarded
  intro s len body rest hr hp hlen hshort hin
  obtain ⟨t, hrun, ht, hbytes⟩ := run_frame hr hp hlen hin
  rw [phaseAfter_all, if_pos hshort, ← hp] at ht
  exact ⟨t, hrun, ht, hbytes⟩

/-- Settles O26: the frame is received as it was encoded, and decodes to the command it encodes. -/
theorem receivedFrameIsExecuted : Obligations.ReceivedFrameIsExecuted := by
  unfold Obligations.ReceivedFrameIsExecuted
  intro s i rest hc hwf hr hp hin
  have hlen : (codeOf s.cfg i :: i.frame.payload ++ wordBytes i.frame.crc).length = i.frame.len.toNat := by
    rw [Frame.len_toNat hwf]
    simp [wordBytes]
  obtain ⟨t, hrun, ht, hbytes⟩ := run_frame hr hp hlen hin
  have hlong : ¬ i.frame.len.toNat < 5 := by rw [Frame.len_toNat hwf]; omega
  rw [phaseAfter_all, if_neg hlong] at ht
  have hdecode : decode t.cfg (receivedBytes t) = .instr i [] := by
    have hcfg : t.cfg = s.cfg := by rw [ht]
    rw [hbytes, hcfg, ← decodeOfEncodeIsTheInstruction s.cfg i [] hc hwf, List.append_nil]
    rfl
  refine ⟨t, hrun, ht, hbytes, ?_⟩
  rw [step_of_no_resets (by rw [ht]; exact hr), advance_exec (by rw [ht]), dispatch, hdecode]

/-- Settles O27. -/
theorem stepRunsTheDecodedInstruction : Obligations.StepRunsTheDecodedInstruction := by
  unfold Obligations.StepRunsTheDecodedInstruction
  intro s hr hp
  rw [step_of_no_resets hr, advance_exec hp, dispatch]
  exact ⟨fun i h => by rw [h], fun code f h => by rw [h]⟩

/-- Settles O28: the received frame's command byte is its code. -/
theorem dispatchFollowsTheCommandByte : Obligations.DispatchFollowsTheCommandByte := by
  unfold Obligations.DispatchFollowsTheCommandByte
  intro s h hr hp
  rw [step_of_no_resets hr, advance_exec hp]
  obtain ⟨f, hbytes, hcommand, hunknown⟩ := dispatch_of_inv h hp
  refine ⟨fun hmem => ?_, fun hmem => hunknown ((commandOf_eq_none_iff _ _ f).2 hmem)⟩
  cases hc : commandOf s.cfg s.rxbuf[1] f with
  | none => exact absurd hmem ((commandOf_eq_none_iff _ _ f).1 hc)
  | some i =>
    obtain ⟨hcode, rfl⟩ := commandOf_some _ _ _ _ hc
    exact ⟨i, hcode, by rw [encode, hcode, hbytes], hcommand i hc⟩

end Sys2Proof.Proofs
end

section
/-! PROOFS. What a step does not depend on: the resets still to come (rule R142), and what earlier cycles left in the
receive and working registers (rules R17, R20 and R28). -/

namespace Sys2Proof.Machine

/-! ### The resets to come -/

/-- `s` with the resets to come replaced. -/
def withResets (resets : List Nat) (s : State) : State := { s with resets := resets }

/-- An outcome with the resets to come of its next state replaced. -/
def mapResets (resets : List Nat) : Result → Result
  | .next s => .next (withResets resets s)
  | .fault r => .fault r
  | .refused r => .refused r

/-- An operation that neither reads nor writes the resets to come. -/
def IgnoresResets (op : State → Result) : Prop :=
  ∀ (resets : List Nat) (s : State), op (withResets resets s) = mapResets resets (op s)

theorem IgnoresResets.andThen {op next : State → Result} (hop : IgnoresResets op) (hnext : IgnoresResets next) :
    IgnoresResets fun s => Machine.andThen (op s) next := by
  intro resets s
  simp only [hop resets s]
  cases op s with
  | next t => exact hnext resets t
  | fault r => rfl
  | refused r => rfl

/-- An operation that always completes. -/
theorem IgnoresResets.next {op : State → State}
    (h : ∀ resets s, op (withResets resets s) = withResets resets (op s)) :
    IgnoresResets fun s => .next (op s) :=
  fun resets s => congrArg Host.Outcome.next (h resets s)

theorem flashUnlock_ignoresResets : IgnoresResets flashUnlock := by
  intro resets s
  cases hs : s.flashCs <;> simp [flashUnlock, withResets, mapResets, emit, hs]

theorem flashLock_ignoresResets : IgnoresResets flashLock := by
  intro resets s
  cases hs : s.flashCs <;> simp [flashLock, withResets, mapResets, emit, hs]

theorem flashBracket_ignoresResets {requests : State → Result} (h : IgnoresResets requests) :
    IgnoresResets (flashBracket requests) :=
  flashUnlock_ignoresResets.andThen (h.andThen flashLock_ignoresResets)

theorem report_withResets (e : ErrorKind) (resets : List Nat) (s : State) :
    report e (withResets resets s) = withResets resets (report e s) := by
  cases e with
  | transportFailure => cases hn : s.cfg.nackOnRxError <;> simp [report, withResets, emit, hn]
  | malformedFrame | integrityFailure | unknownCommand | pageNumberInvalid | eraseHardwareFailure | addressInvalid
  | programHardwareFailure => rfl

theorem abort_withResets (e : ErrorKind) (resets : List Nat) (s : State) :
    abort e (withResets resets s) = withResets resets (abort e s) := by
  rw [abort, report_withResets]
  rfl

/-- The gate passes a handler on that ignores the resets (rule R78). -/
theorem verified_ignoresResets (code : Config → Byte) (f : Frame) {handler : Byte → State → Result}
    (h : ∀ c, IgnoresResets (handler c)) :
    IgnoresResets fun s => verified (code s.cfg) f s (handler (code s.cfg)) := by
  intro resets s
  simp only [verified_eq]
  have hsum : frameSum (withResets resets s) (code (withResets resets s).cfg) f = frameSum s (code s.cfg) f := rfl
  rw [hsum]
  split
  · exact h (code s.cfg) resets (verifiedState (code s.cfg) f s)
  · rfl

theorem ackHandler_ignoresResets (n : Byte) (reply : Config → List Byte) : IgnoresResets (ackHandler n reply) :=
  fun _ _ => rfl

/-! ### Draws and operands -/

@[simp] theorem draw_withResets (resets : List Nat) (s : State) :
    draw (withResets resets s) = ((draw s).1, withResets resets (draw s).2) := by
  cases ho : s.oracle <;> simp [draw, withResets, ho]

@[simp] theorem drawBit_withResets (resets : List Nat) (s : State) :
    drawBit (withResets resets s) = ((drawBit s).1, withResets resets (drawBit s).2) := by
  simp [drawBit]

@[simp] theorem frameByte_withResets (bs : List Byte) (i : Nat) (resets : List Nat) (s : State) :
    frameByte bs i (withResets resets s) = ((frameByte bs i s).1, withResets resets (frameByte bs i s).2) := by
  cases hb : bs[i]? <;> simp [frameByte, drawByte, hb]

@[simp] theorem frameHalf_withResets (bs : List Byte) (i : Nat) (resets : List Nat) (s : State) :
    frameHalf bs i (withResets resets s) = ((frameHalf bs i s).1, withResets resets (frameHalf bs i s).2) := by
  simp [frameHalf]

@[simp] theorem frameWord_withResets (bs : List Byte) (i : Nat) (resets : List Nat) (s : State) :
    frameWord bs i (withResets resets s) = ((frameWord bs i s).1, withResets resets (frameWord bs i s).2) := by
  simp [frameWord]

theorem readEraseFields_withResets (bs : List Byte) (resets : List Nat) (s : State) :
    readEraseFields bs (withResets resets s) = withResets resets (readEraseFields bs s) := by
  simp only [readEraseFields, frameByte_withResets, frameWord_withResets]
  rfl

theorem readWriteFields_withResets (bs : List Byte) (resets : List Nat) (s : State) :
    readWriteFields bs (withResets resets s) = withResets resets (readWriteFields bs s) := by
  simp only [readWriteFields, frameByte_withResets, frameWord_withResets]
  rfl

/-! ### FLASH_ERASE -/

theorem eraseAnswer_withResets (r : EraseRequest) (resets : List Nat) (s : State) :
    eraseAnswer r (withResets resets s) = ((eraseAnswer r s).1, withResets resets (eraseAnswer r s).2) := by
  unfold eraseAnswer
  have hknown : knownErased (withResets resets s).history r = knownErased s.history r := rfl
  rw [hknown, draw_withResets]
  split <;> rfl

theorem flashErase_ignoresResets (r : EraseRequest) (answer : Word) : IgnoresResets (flashErase r answer) := by
  intro resets s
  cases hs : s.flashCs <;> simp [flashErase, withResets, mapResets, emit, hs]

theorem eraseRequests_ignoresResets : IgnoresResets eraseRequests := by
  intro resets s
  simp only [eraseRequests]
  have hrequest : eraseRequestOf (withResets resets s).cfg (withResets resets s).pCount (withResets resets s).pAddr =
    eraseRequestOf s.cfg s.pCount s.pAddr := rfl
  rw [hrequest, eraseAnswer_withResets]
  generalize hanswer : eraseAnswer (eraseRequestOf s.cfg s.pCount s.pAddr) s = answer
  exact flashErase_ignoresResets _ answer.1 resets { answer.2 with err := answer.1 }

theorem eraseFinish_withResets (resets : List Nat) (s : State) :
    eraseFinish (withResets resets s) = withResets resets (eraseFinish s) := by
  have herr : (withResets resets s).err = s.err := rfl
  simp only [eraseFinish, herr]
  cases outcomeOf s.err <;> rfl

/-- FLASH_ERASE behind the gate, up to the page-count check (rule R108). -/
def checkPages (bs : List Byte) (s : State) : State :=
  let s2 := sendAckHeader 1 (readEraseFields bs s)
  { s2 with pageStatus := pageBounds s2.cfg s2.pCount }

/-- FLASH_ERASE behind the gate (rule R108). -/
def eraseHandler (bs : List Byte) (s : State) : Result :=
  match (checkPages bs s).pageStatus with
  | .invalid => .next (abort .pageNumberInvalid (checkPages bs s))
  | .valid => andThen (flashBracket eraseRequests (checkPages bs s)) fun s4 => .next (eraseFinish s4)

theorem exec_flashErase (f : Frame) (s : State) : exec (.flashErase f) s =
    verified s.cfg.cmdFlashErase f s (eraseHandler (f.bytes s.cfg.cmdFlashErase)) := rfl

theorem eraseHandler_ignoresResets (bs : List Byte) : IgnoresResets (eraseHandler bs) := by
  intro resets s
  have hcheck : checkPages bs (withResets resets s) = withResets resets (checkPages bs s) := by
    simp only [checkPages, readEraseFields_withResets]
    rfl
  have hstatus : (withResets resets (checkPages bs s)).pageStatus = (checkPages bs s).pageStatus := rfl
  simp only [eraseHandler, hcheck, hstatus]
  cases (checkPages bs s).pageStatus with
  | invalid => exact congrArg Host.Outcome.next (abort_withResets ..)
  | valid =>
    exact (flashBracket_ignoresResets eraseRequests_ignoresResets).andThen (.next eraseFinish_withResets) resets _

/-! ### MEMORY_WRITE -/

theorem flashProgram_ignoresResets (a : Word) (h : Half) (ok : Bool) : IgnoresResets (flashProgram a h ok) := by
  intro resets s
  cases hs : s.flashCs <;> simp [flashProgram, withResets, mapResets, emit, hs]

/-- One pass of the loop after the answer to its request (rules R112 and R114). -/
def afterAnswer (bs : List Byte) (n : Nat) (ok : Bool) (s : State) : Result :=
  let s2 := { s with wStatus := if ok then s.wStatus else .failed }
  if s2.cfg.programStopOnFail && !ok then .next s2 else programLoop bs n { s2 with k := s2.k + 1 }

theorem programLoop_succ_eq (bs : List Byte) (n : Nat) (s : State) : programLoop bs (n + 1) s =
    andThen (flashProgram (halfAddr s.wAddr s.k.toNat) (frameHalf bs (7 + 2 * s.k.toNat) s).1
      (drawBit (frameHalf bs (7 + 2 * s.k.toNat) s).2).1 (drawBit (frameHalf bs (7 + 2 * s.k.toNat) s).2).2)
      (afterAnswer bs n (drawBit (frameHalf bs (7 + 2 * s.k.toNat) s).2).1) := rfl

theorem programLoop_ignoresResets (bs : List Byte) (n : Nat) : IgnoresResets (programLoop bs n) := by
  induction n with
  | zero => exact fun resets s => rfl
  | succ n ih =>
    have hafter (ok : Bool) : IgnoresResets (afterAnswer bs n ok) := by
      intro resets s
      have hstop : (withResets resets s).cfg.programStopOnFail = s.cfg.programStopOnFail := rfl
      simp only [afterAnswer, hstop]
      split
      · rfl
      · exact ih resets { s with wStatus := if ok then s.wStatus else .failed, k := s.k + 1 }
    intro resets s
    have hk : (withResets resets s).k = s.k := rfl
    have haddr : (withResets resets s).wAddr = s.wAddr := rfl
    rw [programLoop_succ_eq, hk, haddr, frameHalf_withResets, drawBit_withResets]
    exact (flashProgram_ignoresResets _ _ _).andThen (hafter _) resets _

theorem writeFinish_withResets (resets : List Nat) (s : State) :
    writeFinish (withResets resets s) = withResets resets (writeFinish s) := by
  simp only [writeFinish_eq]
  rfl

/-- MEMORY_WRITE behind the gate, up to the address check (rule R112). -/
def checkAddress (bs : List Byte) (s : State) : State :=
  let s2 := sendAckHeader 1 (readWriteFields bs s)
  { s2 with verdict := addrValid s2.cfg s2.wAddr }

/-- MEMORY_WRITE's requests (rule R112). -/
def writeRequests (bs : List Byte) (s : State) : Result :=
  programLoop bs (halfCount s.wLen) { s with wStatus := .passed, k := 0 }

/-- MEMORY_WRITE behind the gate (rule R112). -/
def writeHandler (bs : List Byte) (s : State) : Result :=
  match (checkAddress bs s).verdict with
  | .invalid => .next (abort .addressInvalid (checkAddress bs s))
  | .valid => andThen (flashBracket (writeRequests bs) (checkAddress bs s)) fun s5 => .next (writeFinish s5)

theorem exec_memoryWrite_eq_verified (f : Frame) (s : State) : exec (.memoryWrite f) s =
    verified s.cfg.cmdMemoryWrite f s (writeHandler (f.bytes s.cfg.cmdMemoryWrite)) := rfl

theorem writeHandler_ignoresResets (bs : List Byte) : IgnoresResets (writeHandler bs) := by
  intro resets s
  have hcheck : checkAddress bs (withResets resets s) = withResets resets (checkAddress bs s) := by
    simp only [checkAddress, readWriteFields_withResets]
    rfl
  have hverdict : (withResets resets (checkAddress bs s)).verdict = (checkAddress bs s).verdict := rfl
  have hrequests : IgnoresResets (writeRequests bs) := fun resets t =>
    programLoop_ignoresResets bs (halfCount t.wLen) resets { t with wStatus := .passed, k := 0 }
  simp only [writeHandler, hcheck, hverdict]
  cases (checkAddress bs s).verdict with
  | invalid => exact congrArg Host.Outcome.next (abort_withResets ..)
  | valid => exact (flashBracket_ignoresResets hrequests).andThen (.next writeFinish_withResets) resets _

/-! ### The step -/

theorem exec_ignoresResets (i : Instr) : IgnoresResets (exec i) := by
  cases i with
  | getVersion f =>
    rw [funext (exec_getVersion f)]
    exact verified_ignoresResets (·.cmdGetVersion) f fun _ => ackHandler_ignoresResets 4 versionReply
  | getHelp f =>
    rw [funext (exec_getHelp f)]
    exact verified_ignoresResets (·.cmdGetHelp) f fun _ => ackHandler_ignoresResets 6 helpReply
  | getChipId f =>
    rw [funext (exec_getChipId f)]
    exact verified_ignoresResets (·.cmdGetChipId) f fun _ => ackHandler_ignoresResets 6 chipIdReply
  | goToAddress f => exact fun _ _ => rfl
  | flashErase f =>
    rw [funext (exec_flashErase f)]
    exact verified_ignoresResets (·.cmdFlashErase) f fun c => eraseHandler_ignoresResets (f.bytes c)
  | memoryWrite f =>
    rw [funext (exec_memoryWrite_eq_verified f)]
    exact verified_ignoresResets (·.cmdMemoryWrite) f fun c => writeHandler_ignoresResets (f.bytes c)

theorem execUnknown_ignoresResets (code : Byte) : IgnoresResets (execUnknown code) := by
  intro resets s
  simp only [execUnknown_eq, drawBit_withResets]
  rfl

theorem dispatch_ignoresResets : IgnoresResets dispatch := by
  intro resets s
  have hdecode : decode (withResets resets s).cfg (receivedBytes (withResets resets s)) =
    decode s.cfg (receivedBytes s) := rfl
  simp only [dispatch, hdecode]
  split
  · exact exec_ignoresResets _ resets s
  · exact execUnknown_ignoresResets _ resets s
  · rfl
  · rfl
  · rfl

theorem rxNext_withResets {onByte : Byte → State → State}
    (h : ∀ b resets s, onByte b (withResets resets s) = withResets resets (onByte b s)) (resets : List Nat)
    (s : State) : rxNext onByte (withResets resets s) = withResets resets (rxNext onByte s) := by
  have hinput : (withResets resets s).rxIn = s.rxIn := rfl
  match hin : s.rxIn with
  | [] => rw [rxNext_nil _ hin, rxNext_nil _ (hinput.trans hin)]
  | .byte b :: rest =>
    rw [rxNext_byte _ hin, rxNext_byte _ (hinput.trans hin)]
    exact h b resets { s with rxIn := rest }
  | .error :: rest =>
    rw [rxNext_error _ hin, rxNext_error _ (hinput.trans hin)]
    exact abort_withResets _ resets { s with rxIn := rest }

theorem frameComplete_withResets (resets : List Nat) (s : State) :
    frameComplete (withResets resets s) = withResets resets (frameComplete s) := by
  have hlen : (withResets resets s).rxlen = s.rxlen := rfl
  simp only [frameComplete, hlen]
  split <;> rfl

/-- Until a reset is due the block runs as it does with none to come (rule R142). -/
theorem advance_ignoresResets : IgnoresResets advance := by
  intro resets s
  have hphase : (withResets resets s).phase = s.phase := rfl
  cases hp : s.phase with
  | waitLen =>
    rw [advance_waitLen hp, advance_waitLen (hphase.trans hp),
      rxNext_withResets fun b resets s => by simp only [lengthByte_eq]; rfl]
    rfl
  | waitBody =>
    have hcnt : (withResets resets s).rxcnt = s.rxcnt := rfl
    have hlen : (withResets resets s).rxlen = s.rxlen := rfl
    simp only [advance, hphase, hp, hcnt, hlen]
    split
    · rw [rxNext_withResets fun b resets s => by simp only [bodyByte_eq]; rfl]
      rfl
    · rw [frameComplete_withResets]
      rfl
  | exec =>
    rw [advance_exec hp, advance_exec (hphase.trans hp)]
    exact dispatch_ignoresResets resets s

end Sys2Proof.Machine

namespace Sys2Proof.Proofs
open Sys2Proof.Machine

/-- Settles O3: a reset that is due is the step, and nothing the block itself does reads the resets to come. -/
theorem resetCanComeAtAnyStep : Obligations.ResetCanComeAtAnyStep := by
  unfold Obligations.ResetCanComeAtAnyStep
  intro s rest
  refine ⟨step_of_reset_due, fun n t hr hstep => ?_⟩
  rw [step_of_no_resets rfl] at hstep
  rw [step_of_reset_later hr]
  exact (advance_ignoresResets (n :: rest) { s with resets := [] }).trans (congrArg (mapResets _) hstep)

end Sys2Proof.Proofs
end

section
/-! PROOFS. Two states that differ only in what earlier cycles left behind make the same step (rules R17, R20 and
R28). -/

namespace Sys2Proof.Machine

/-! ### The parts of `SameLive` -/

theorem sameLive_of_received {s t : State} (h : live s = live t) (hlen : s.phase ≠ .waitLen → s.rxlen = t.rxlen)
    (hcnt : s.phase ≠ .waitLen → s.rxcnt = t.rxcnt)
    (hbuf : s.phase ≠ .waitLen → ∀ i : Fin 256, i.val ≤ s.rxcnt.toNat → s.rxbuf.get i = t.rxbuf.get i) :
    SameLive s t := by
  simp only [live, Live.mk.injEq] at h
  obtain ⟨h1, h2, h3, h4, h5, h6, h7, h8, h9, h10, h11, h12, h13⟩ := h
  exact ⟨h1, h2, h3, h4, h5, h6, h7, h8, h9, h10, h11, h12, h13, hlen, hcnt, hbuf⟩

theorem SameLive.with_resets {s t : State} (h : SameLive s t) (resets : List Nat) :
    SameLive { s with resets := resets } { t with resets := resets } :=
  { h with resets := rfl }

theorem SameLive.with_rxIn {s t : State} (h : SameLive s t) (rest : List RxEvent) :
    SameLive { s with rxIn := rest } { t with rxIn := rest } :=
  { h with rxIn := rfl }

/-- The bytes received of a frame in progress are the same. -/
theorem SameLive.receivedBytes_eq {s t : State} (h : SameLive s t) (hp : s.phase ≠ .waitLen)
    (hfull : s.rxcnt = s.rxlen) : receivedBytes s = receivedBytes t := by
  unfold receivedBytes
  rw [← h.rxlen hp]
  refine List.ext_getElem (by simp) fun i hi _ => ?_
  have hlt : i < s.rxlen.toNat + 1 ∧ i < 256 := by simpa using hi
  have hget := h.rxbuf hp ⟨i, hlt.2⟩ (by rw [hfull]; exact Nat.le_of_lt_succ hlt.1)
  simpa [Vector.get] using hget

/-! ### The receiver -/

theorem sameLive_abort_transportFailure {s t : State} (h : SameLive s t) :
    SameLive (abort .transportFailure s) (abort .transportFailure t) := by
  refine sameLive_of_live _ _ ?_ rfl
  have ht := stale_eq s t (live_of_sameLive s t h)
  rw [ht, abort_transportFailure, abort_transportFailure]
  rfl

/-- Two buffers that agree below an index still do, and at it as well, once the same byte is written there. -/
theorem get_set_eq_of_le {v w : Vector Byte 256} {j : Nat} (b : Byte) (hj : j < 256)
    (h : ∀ i : Fin 256, i.val < j → v.get i = w.get i) (i : Fin 256) (hi : i.val ≤ j) :
    (v.set j b hj).get i = (w.set j b hj).get i := by
  rcases Nat.lt_or_eq_of_le hi with hlt | heq
  · have hne : j ≠ i.val := by omega
    rw [Vector.get_eq_getElem, Vector.get_eq_getElem, Vector.getElem_set_ne hj i.isLt hne,
      Vector.getElem_set_ne hj i.isLt hne]
    exact h i hlt
  · simp [Vector.get_eq_getElem, heq]

theorem sameLive_lengthByte {s t : State} (h : SameLive s t) (b : Byte) :
    SameLive (lengthByte b s) (lengthByte b t) := by
  have hlive : live (lengthByte b s) = live (lengthByte b t) := by
    rw [stale_eq s t (live_of_sameLive s t h), lengthByte_eq, lengthByte_eq]
    rfl
  refine sameLive_of_received hlive ?_ ?_ ?_ <;> simp only [lengthByte_eq]
  · exact fun _ => trivial
  · exact fun _ => trivial
  · exact fun _ => get_set_eq_of_le b _ nofun

theorem sameLive_bodyByte {s t : State} (h : SameLive s t) (hp : s.phase = .waitBody) (hdue : s.rxcnt < s.rxlen)
    (b : Byte) : SameLive (bodyByte b s) (bodyByte b t) := by
  have hphase : s.phase ≠ .waitLen := by simp [hp]
  have hlen := h.rxlen hphase
  have hcnt := h.rxcnt hphase
  have hlive : live (bodyByte b s) = live (bodyByte b t) := by
    rw [bodyByte_eq, bodyByte_eq, ← hlen, ← hcnt]
    conv => rhs; rw [stale_eq s t (live_of_sameLive s t h)]
    rfl
  refine sameLive_of_received hlive ?_ ?_ ?_ <;> simp only [bodyByte_eq]
  · exact fun _ => hlen
  · exact fun _ => by rw [hcnt]
  · intro _ i hi
    rw [rxcnt_succ_toNat hdue, ← bodyIndex_toNat hdue] at hi
    simp only [← hcnt]
    refine get_set_eq_of_le b (1 + s.rxcnt).isLt (fun j hj => h.rxbuf hphase j ?_) i hi
    rw [bodyIndex_toNat hdue] at hj
    omega

theorem sameLive_rxNext {onByte : Byte → State → State} {s t : State} (h : SameLive s t)
    (hbyte : ∀ b rest, SameLive (onByte b { s with rxIn := rest }) (onByte b { t with rxIn := rest })) :
    SameLive (rxNext onByte s) (rxNext onByte t) := by
  have hinput := h.rxIn
  match hin : t.rxIn with
  | [] => rwa [rxNext_nil _ hin, rxNext_nil _ (hinput.trans hin)]
  | .byte b :: rest =>
    rw [rxNext_byte _ hin, rxNext_byte _ (hinput.trans hin)]
    exact hbyte b rest
  | .error :: rest =>
    rw [rxNext_error _ hin, rxNext_error _ (hinput.trans hin)]
    exact sameLive_abort_transportFailure (h.with_rxIn rest)

/-! ### Commands and resets -/

theorem verified_ackHandler_live (code n : Byte) (reply : Config → List Byte) (f : Frame) (s u : State) :
    liveO (verified code f (stale s u) (ackHandler n reply)) = liveO (verified code f s (ackHandler n reply)) := by
  have hsum : frameSum (stale s u) code f = frameSum s code f := rfl
  rw [verified_ackHandler, verified_ackHandler, hsum]
  split <;> rfl

theorem exec_live (i : Instr) (s u : State) (hcs : s.flashCs = false) :
    liveO (exec i (stale s u)) = liveO (exec i s) := by
  cases i with
  | getVersion f => exact verified_ackHandler_live _ 4 versionReply f s u
  | getHelp f => exact verified_ackHandler_live _ 6 helpReply f s u
  | getChipId f => exact verified_ackHandler_live _ 6 chipIdReply f s u
  | goToAddress f => rfl
  | flashErase f => exact execFlashErase_live f s u hcs
  | memoryWrite f => exact execMemoryWrite_live f s u hcs

theorem execUnknown_live (code : Byte) (s u : State) :
    liveO (execUnknown code (stale s u)) = liveO (execUnknown code s) := by
  have hd : SameDraws (stale s u) s := ⟨rfl, rfl⟩
  rw [execUnknown_eq, execUnknown_eq, drawBit_congr hd]
  rfl

theorem dispatch_live {s t : State} (h : live s = live t) (hbytes : receivedBytes s = receivedBytes t)
    (hcs : s.flashCs = false) : liveO (dispatch t) = liveO (dispatch s) := by
  have hcfg : s.cfg = t.cfg := congrArg Live.cfg h
  unfold dispatch
  rw [← hbytes, ← hcfg, stale_eq s t h]
  split
  · exact exec_live _ s t hcs
  · exact execUnknown_live _ s t
  · rfl
  · rfl
  · rfl

theorem resetBlock_live (s u : State) : live (resetBlock (stale s u)) = live (resetBlock s) := by
  by_cases hp : s.phase = .waitLen
  · rw [resetBlock_between hp, resetBlock_between (s := stale s u) hp]
    rfl
  · have hd : SameDraws (stale s u) s := ⟨rfl, rfl⟩
    obtain ⟨w, d, hdraw, heq⟩ := resetBlock_inside hp
    obtain ⟨w', d', hdraw', heq'⟩ := resetBlock_inside (s := stale s u) hp
    rw [drawBit_congr hd, hdraw] at hdraw'
    cases hdraw'
    rw [heq, heq']
    rfl

/-- The block's own step from a state that meets the invariant. -/
theorem sameLive_of_advance {s t s' : State} (hinv : Inv s) (h : SameLive s t) (hadv : advance s = .next s') :
    ∃ t', advance t = .next t' ∧ SameLive s' t' := by
  cases hp : s.phase with
  | waitLen =>
    obtain rfl := Host.Outcome.next.inj ((advance_waitLen hp).symm.trans hadv)
    exact ⟨_, advance_waitLen (h.phase.symm.trans hp), sameLive_rxNext h fun b rest =>
      sameLive_lengthByte (h.with_rxIn rest) b⟩
  | waitBody =>
    have hdue := hinv.bodyDue hp
    obtain rfl := Host.Outcome.next.inj ((advance_waitBody hp hdue).symm.trans hadv)
    have hdue' : t.rxcnt < t.rxlen := by rwa [← h.rxcnt (by simp [hp]), ← h.rxlen (by simp [hp])]
    exact ⟨_, advance_waitBody (h.phase.symm.trans hp) hdue', sameLive_rxNext h fun b rest =>
      sameLive_bodyByte (h.with_rxIn rest) hp hdue b⟩
  | exec =>
    rw [advance_exec hp] at hadv
    rw [advance_exec (h.phase.symm.trans hp)]
    have hlive := dispatch_live (live_of_sameLive s t h) (h.receivedBytes_eq (by simp [hp]) (hinv.frameDone hp).1)
      hinv.lockAtRest
    rw [hadv] at hlive
    cases ht : dispatch t with
    | next t' =>
      rw [ht] at hlive
      exact ⟨t', rfl, sameLive_of_live _ _ (Option.some.inj hlive).symm (dispatch_effect hadv).2.phase⟩
    | fault r => rw [ht] at hlive; cases hlive
    | refused r => rw [ht] at hlive; cases hlive

end Sys2Proof.Machine

namespace Sys2Proof.Proofs
open Sys2Proof.Machine

/-- Settles O7: a reset reads nothing of what may differ, and the block's own step nothing either. -/
theorem staleStateIsNeverObserved : Obligations.StaleStateIsNeverObserved := by
  unfold Obligations.StaleStateIsNeverObserved
  intro s t s' hinv h hstep
  rcases step_cases s with ⟨hr, heq⟩ | ⟨rest, hr, heq⟩ | ⟨n, rest, hr, heq⟩
  · rw [step_of_no_resets (h.resets.symm.trans hr)]
    exact sameLive_of_advance hinv h (heq.symm.trans hstep)
  · obtain rfl := Host.Outcome.next.inj (heq.symm.trans hstep)
    refine ⟨_, step_of_reset_due (h.resets.symm.trans hr), sameLive_of_live _ _ ?_ rfl⟩
    have hlive := live_of_sameLive _ _ (h.with_resets rest)
    rw [stale_eq _ _ hlive]
    exact (resetBlock_live _ _).symm
  · rw [step_of_reset_later (h.resets.symm.trans hr)]
    exact sameLive_of_advance (hinv.with_resets _) (h.with_resets _) (heq.symm.trans hstep)

end Sys2Proof.Proofs
end

section
/-! PROOFS. What answers an erase request (spec/42_flash_commands.md, rules R105 and R106): the next draw where the
pages are not known to be erased, and 0 where they are. -/

namespace Sys2Proof.Machine

/-! ### What is known to be erased -/

/-- Where no erase has been answered 0, nothing is known to be erased. -/
theorem pageErased_of_never_answered {h : List Event} (hnever : ∀ r : EraseRequest, .erase r 0 ∉ h) (p : Nat) :
    pageErased p h = false := by
  induction h with
  | nil => rfl
  | cons e h ih =>
    have ih := ih fun r hr => hnever r (List.mem_cons_of_mem e hr)
    cases e with
    | erase r x =>
      have hx : decide (x = 0) = false := decide_eq_false fun hzero => hnever r (by simp [hzero])
      simp only [pageErased, hx, ih, Bool.false_and, Bool.or_self]
    | program _ _ _ | tx _ | flashUnlock | flashLock | diag _ => simp [pageErased, ih]

theorem answeredBefore_of_never_answered {h : List Event} (hnever : ∀ r : EraseRequest, .erase r 0 ∉ h)
    (r : EraseRequest) : answeredBefore r h = false := by
  induction h with
  | nil => rfl
  | cons e h ih =>
    have ih := ih fun r hr => hnever r (List.mem_cons_of_mem e hr)
    cases e with
    | erase q x =>
      have hx : decide (x = 0) = false := decide_eq_false fun hzero => hnever q (by simp [hzero])
      simp only [answeredBefore, hx, ih, Bool.false_and, Bool.or_self]
    | program _ _ _ | tx _ | flashUnlock | flashLock | diag _ => simp [answeredBefore, ih]

/-- A request with an unerased page, not answered before, is not restricted by rule R106. -/
theorem knownErased_eq_false {h : List Event} {r : EraseRequest} (hbefore : answeredBefore r h = false)
    (hpage : r.pages = [] ∨ ∃ p ∈ r.pages, pageErased p h = false) : knownErased h r = false := by
  have hall : (!r.pages.isEmpty && r.pages.all fun p => pageErased p h) = false := by
    rcases hpage with hnil | ⟨p, hp, hfalse⟩
    · simp [hnil]
    · have hnot : (r.pages.all fun p => pageErased p h) = false := List.all_eq_false.2 ⟨p, hp, by simp [hfalse]⟩
      simp [hnot]
  unfold knownErased
  rw [hbefore]
  cases h with
  | nil => rfl
  | cons e h => exact hall

/-- A request all of whose pages are erased, and there are some, is answered 0 (rule R106). -/
theorem knownErased_of_pages {h : List Event} {r : EraseRequest} (hne : r.pages ≠ [])
    (hall : ∀ p ∈ r.pages, pageErased p h = true) : knownErased h r = true := by
  have hpages : (!r.pages.isEmpty && r.pages.all fun p => pageErased p h) = true := by
    simpa [hne] using hall
  cases h with
  | nil =>
    obtain ⟨p, hp⟩ := List.exists_mem_of_ne_nil _ hne
    simpa [pageErased] using hall p hp
  | cons e h =>
    unfold knownErased
    rw [hpages, Bool.or_true]

/-- The mass erase names at least the first page of its bank. -/
theorem EraseRequest.mem_pages_all (base : Word) : Config.pageFrom base 0 ∈ (EraseRequest.all base).pages :=
  List.mem_map.2 ⟨0, List.mem_range.2 (Nat.succ_pos _), rfl⟩

theorem EraseRequest.mem_pages_byPage (base : Word) {count : Byte} (h : count ≠ 0) :
    Config.pageFrom base 0 ∈ (EraseRequest.byPage base count).pages :=
  List.mem_map.2 ⟨0, List.mem_range.2 ((BitVec.pos_iff_ne_zero count).2 h), rfl⟩

/-- Which pages a FLASH_ERASE names: none, or among them that of its base address (rule R110). -/
theorem eraseRequestOf_pages (c : Config) (count : Byte) (addr : Word) :
    (eraseRequestOf c count addr).pages = [] ∨
      Config.pageFrom (if addr = c.massEraseSentinel ∨ c.eraseStart = .fixedBase then c.appBaseAddr else addr) 0 ∈
        (eraseRequestOf c count addr).pages := by
  rw [eraseRequestOf_eq]
  by_cases hsentinel : addr = c.massEraseSentinel
  · rw [if_pos hsentinel, if_pos (.inl hsentinel)]
    exact .inr (EraseRequest.mem_pages_all _)
  · by_cases hzero : count = 0
    · rw [if_neg hsentinel, hzero]
      exact .inl rfl
    · rw [if_neg hsentinel]
      simp only [hsentinel, false_or]
      exact .inr (EraseRequest.mem_pages_byPage _ hzero)

theorem eraseRequestOf_pages_ne_nil (c : Config) {count : Byte} {addr : Word}
    (h : count ≠ 0 ∨ addr = c.massEraseSentinel) : (eraseRequestOf c count addr).pages ≠ [] := by
  rw [eraseRequestOf_eq]
  by_cases hsentinel : addr = c.massEraseSentinel
  · rw [if_pos hsentinel]
    exact List.ne_nil_of_mem (EraseRequest.mem_pages_all _)
  · rw [if_neg hsentinel]
    exact List.ne_nil_of_mem (EraseRequest.mem_pages_byPage _ (h.resolve_right hsentinel))

/-- Nothing ends a page's erasure but a program request (rule R106, assumption 7). -/
theorem pageErased_append_erases {between : List Event} {p : Nat} {h : List Event}
    (hbetween : ∀ e ∈ between, ∃ (r : EraseRequest) (x : Word), e = .erase r x) (hp : pageErased p h = true) :
    pageErased p (between ++ h) = true := by
  induction between with
  | nil => exact hp
  | cons e between ih =>
    obtain ⟨⟨r, x, rfl⟩, hrest⟩ := List.forall_mem_cons.1 hbetween
    simp [pageErased, ih hrest]

/-- Fewer pages from the same base are among the pages. -/
theorem EraseRequest.pages_subset {c : Config} {m n : Byte} (addr : Word) (hmn : m ≤ n) :
    (eraseRequestOf c m addr).pages ⊆ (eraseRequestOf c n addr).pages := by
  have hle : m.toNat ≤ n.toNat := hmn
  have hby (a : Word) : (EraseRequest.byPage a m).pages ⊆ (EraseRequest.byPage a n).pages :=
    List.map_subset _ fun i hi => List.mem_range.2 ((List.mem_range.1 hi).trans_le hle)
  rw [eraseRequestOf_eq, eraseRequestOf_eq]
  split
  · exact List.Subset.refl _
  · exact hby _

/-! ### The answer and what it leaves -/

theorem eraseAnswer_of_knownErased {r : EraseRequest} {s : State} (h : knownErased s.history r = true) :
    eraseAnswer r s = (0, s) := by
  rw [eraseAnswer, if_pos h]

theorem eraseAnswer_of_not_knownErased {r : EraseRequest} {s : State} (h : knownErased s.history r = false) :
    eraseAnswer r s = draw s := by
  simp [eraseAnswer, h]

theorem eraseAnswer_oracle_congr (r : EraseRequest) {s d : State} (hd : SameDraws s d) (hh : s.history = d.history) :
    (eraseAnswer r s).2.oracle = (eraseAnswer r d).2.oracle := by
  unfold eraseAnswer
  rw [hh]
  split
  · exact hd.1
  · rw [draw_congr hd]
    rfl

theorem eraseRequests_oracle {s t : State} (h : eraseRequests s = .next t) :
    t.oracle = (eraseAnswer (eraseRequestOf s.cfg s.pCount s.pAddr) s).2.oracle := by
  simp only [eraseRequests, flashErase] at h
  split at h
  · cases h
    rfl
  · cases h

@[simp] theorem eraseFinish_oracle (s : State) : (eraseFinish s).oracle = s.oracle := by
  cases ho : outcomeOf s.err <;> simp [eraseFinish, ho, abort, report]

/-- The erase in its bracket takes no draw but the answer (rules R105 and R118). -/
theorem eraseBracket_finish_oracle {s t : State} (hs : s.flashCs = false)
    (h : andThen (flashBracket eraseRequests s) (fun u => .next (eraseFinish u)) = .next t) :
    t.oracle = (eraseAnswer (eraseRequestOf s.cfg s.pCount s.pAddr) s).2.oracle := by
  obtain ⟨u, hu, he⟩ := eraseRequests_spec (emit .flashUnlock { s with flashCs := true, unlocked := true }) rfl
  rw [flashBracket_eq eraseRequests hs hu (by rw [he]; rfl)] at h
  cases h
  rw [eraseFinish_oracle]
  exact (eraseRequests_oracle hu).trans (eraseAnswer_oracle_congr _ ⟨rfl, rfl⟩ rfl)

/-- A FLASH_ERASE whose frame holds its fields takes no draw but the answer to its request (rules R54 and R105). -/
theorem exec_flashErase_oracle {f : Frame} {s t : State} {count a0 a1 a2 a3 : Byte} {extra : List Byte}
    (hp : f.payload = count :: a0 :: a1 :: a2 :: a3 :: extra) (hs : s.flashCs = false)
    (hv : frameSum s s.cfg.cmdFlashErase f = f.crc) (hc : count ≤ s.cfg.maxPages)
    (h : exec (.flashErase f) s = .next t) :
    t.oracle = (eraseAnswer (eraseRequestOf s.cfg count (word32 a0 a1 a2 a3)) s).2.oracle := by
  rw [exec_flashErase, verified_eq, if_pos hv] at h
  have hq := readEraseFields_of_payload s.cfg.cmdFlashErase hp (verifiedState s.cfg.cmdFlashErase f s)
  have hstatus :
      (checkPages (f.bytes s.cfg.cmdFlashErase) (verifiedState s.cfg.cmdFlashErase f s)).pageStatus = .valid := by
    rw [checkPages, hq]
    exact if_neg (BitVec.not_lt.2 hc)
  rw [eraseHandler, hstatus, checkPages, hq] at h
  exact (eraseBracket_finish_oracle (by exact hs) h).trans (eraseAnswer_oracle_congr _ ⟨rfl, rfl⟩ rfl)

/-- What an erase request with its answer leaves (rules R105 to R108). -/
structure EraseAnswered (r : EraseRequest) (s t : State) : Prop where
  err : t.err = (eraseAnswer r s).1
  oracle : t.oracle = (eraseAnswer r s).2.oracle
  cfg : t.cfg = s.cfg
  flashCs : t.flashCs = false
  crcAcc : t.crcAcc = s.cfg.crcInit
  outcome : t.eraseOutcome = if t.err = 0 then .succeeded else .failed
  history : t.history = .erase r t.err :: s.history
  last : t.evt.getLast? = some (.tx [if t.err = 0 then s.cfg.stEraseOk else s.cfg.stEraseFail])

/-- A FLASH_ERASE whose frame holds its fields, within the page-count bound: its request is answered (rules R108 to
R111). -/
theorem exec_flashErase_of_payload {f : Frame} {s : State} {count a0 a1 a2 a3 : Byte} {extra : List Byte}
    (hp : f.payload = count :: a0 :: a1 :: a2 :: a3 :: extra) (hs : s.flashCs = false)
    (hv : frameSum s s.cfg.cmdFlashErase f = f.crc) (hc : count ≤ s.cfg.maxPages) :
    ∃ t : State, exec (.flashErase f) s = .next t ∧
      EraseAnswered (eraseRequestOf s.cfg count (word32 a0 a1 a2 a3)) s t := by
  have hq := readEraseFields_of_payload s.cfg.cmdFlashErase hp s
  obtain ⟨t, hexec, ht⟩ := execFlashErase_valid f s hs hv _ hq (BitVec.not_lt.2 hc)
  have herr := execFlashErase_err hs hv hq (BitVec.not_lt.2 hc) hexec
  exact ⟨t, hexec,
    { err := herr.trans (eraseAnswer_fst_congr _ ⟨rfl, rfl⟩ rfl)
      oracle := exec_flashErase_oracle hp hs hv hc hexec
      cfg := by rw [ht]; rfl
      flashCs := by rw [ht]; exact hs
      crcAcc := by rw [ht]; rfl
      outcome := by rw [ht]
      history := by rw [ht]
      last := by rw [ht]; simp [doneState] }⟩

/-- EraseSucceeded is reported only of the answer 0 (rule R111). -/
theorem EraseAnswered.err_of_succeeded {r : EraseRequest} {s t : State} (h : EraseAnswered r s t)
    (hs : t.eraseOutcome = .succeeded) : t.err = 0 := by
  by_contra hne
  rw [h.outcome, if_neg hne] at hs
  cases hs

/-- A request of pages known to be erased reports EraseSucceeded (rule R106). -/
theorem EraseAnswered.of_knownErased {r : EraseRequest} {s t : State} (h : EraseAnswered r s t)
    (hk : knownErased s.history r = true) :
    t.err = 0 ∧ t.eraseOutcome = .succeeded ∧ t.evt.getLast? = some (.tx [s.cfg.stEraseOk]) := by
  have herr : t.err = 0 := by rw [h.err, eraseAnswer_of_knownErased hk]
  exact ⟨herr, by rw [h.outcome, if_pos herr], by rw [h.last, if_pos herr]⟩

end Sys2Proof.Machine

namespace Sys2Proof.Proofs
open Sys2Proof.Machine

/-- Settles O45: neither a record with no erase answered 0 nor a program request to the base page leaves the request
known erased, so that its answer is the next draw. -/
theorem anyEraseAnswerIsPossible : Obligations.AnyEraseAnswerIsPossible := by
  unfold Obligations.AnyEraseAnswerIsPossible
  intro f s count a0 a1 a2 a3 extra e ws hp hs hhist hv hc ho
  obtain ⟨t, hexec, ht⟩ := exec_flashErase_of_payload hp hs hv hc
  have hpages := eraseRequestOf_pages s.cfg count (word32 a0 a1 a2 a3)
  have hfree : knownErased s.history (eraseRequestOf s.cfg count (word32 a0 a1 a2 a3)) = false := by
    rcases hhist with hnever | ⟨h, ok, older, hprogram⟩
    · exact knownErased_eq_false (answeredBefore_of_never_answered hnever _)
        (hpages.imp_right fun hmem => ⟨_, hmem, pageErased_of_never_answered hnever _⟩)
    · rw [hprogram]
      exact knownErased_eq_false rfl (hpages.imp_right fun hmem => ⟨_, hmem, by simp [pageErased]⟩)
  have herr := ht.err
  have horacle := ht.oracle
  rw [eraseAnswer_of_not_knownErased hfree, draw, ho] at herr horacle
  exact ⟨t, hexec, herr, horacle, by rw [ht.outcome, herr]⟩

/-- Settles O46: the first answer was 0, so that the same request is known erased. -/
theorem erasingErasedPagesSucceeds : Obligations.ErasingErasedPagesSucceeds := by
  unfold Obligations.ErasingErasedPagesSucceeds
  intro f s t count a0 a1 a2 a3 extra hp hs hcrc hv hc h hsucceeded
  obtain ⟨t', hexec, ht⟩ := exec_flashErase_of_payload hp hs hv hc
  obtain rfl : t = t' := Host.Outcome.next.inj (h.symm.trans hexec)
  have hv' : frameSum t t.cfg.cmdFlashErase f = f.crc := by
    rw [← hv, frameSum, frameSum, ht.cfg, ht.crcAcc, hcrc]
  obtain ⟨u, hexec', hu⟩ := exec_flashErase_of_payload hp ht.flashCs hv' (ht.cfg ▸ hc)
  have hknown : knownErased t.history (eraseRequestOf t.cfg count (word32 a0 a1 a2 a3)) = true := by
    rw [ht.history, ht.cfg, ht.err_of_succeeded hsucceeded]
    simp [knownErased, answeredBefore]
  exact ⟨u, hexec', ht.cfg ▸ hu.of_knownErased hknown⟩

/-- Settles O47: the first request's pages stay erased over the erases between, and the second's are among them. -/
theorem erasedPagesStayErasedAcrossErases : Obligations.ErasedPagesStayErasedAcrossErases := by
  unfold Obligations.ErasedPagesStayErasedAcrossErases
  intro f g s t u n m a0 a1 a2 a3 extra others between hpf hpg hmn hm hs hv hc h hsucceeded hcfg hcs hvg hhist hbetween
  obtain ⟨t', hexec, ht⟩ := exec_flashErase_of_payload hpf hs hv hc
  obtain rfl : t = t' := Host.Outcome.next.inj (h.symm.trans hexec)
  have hcfgu : u.cfg = s.cfg := hcfg.trans ht.cfg
  obtain ⟨v, hexec', hv'⟩ := exec_flashErase_of_payload hpg hcs hvg (hcfgu ▸ BitVec.le_trans hmn hc)
  have hknown : knownErased u.history (eraseRequestOf u.cfg m (word32 a0 a1 a2 a3)) = true := by
    rw [hhist, ht.history, hcfgu, ht.err_of_succeeded hsucceeded]
    refine knownErased_of_pages (eraseRequestOf_pages_ne_nil s.cfg hm) fun p hp => pageErased_append_erases hbetween ?_
    simp [pageErased, EraseRequest.pages_subset (word32 a0 a1 a2 a3) hmn hp]
  exact ⟨v, hexec', hcfgu ▸ hv'.of_knownErased hknown⟩

end Sys2Proof.Proofs
end

section
/-! PROOFS. What a MEMORY_WRITE leaves in the array and how it takes its answers (spec/42_flash_commands.md, rules R105
and R112 to R115). -/

namespace Sys2Proof.Machine

/-- The state in which the programming loop of a MEMORY_WRITE starts, with the fields read in `q` (rule R112). -/
def loopStart (f : Frame) (q s : State) : State :=
  { s with
    cmd := s.cfg.cmdMemoryWrite, hostCrc := f.crc, verify := .passed, crcAcc := s.cfg.crcInit
    wAddr := q.wAddr, wLen := q.wLen, oracle := q.oracle, drawCount := q.drawCount, verdict := .valid
    evt := s.evt ++ [.diag s.cfg.cmdMemoryWrite] ++ [.tx [s.cfg.ackMarker, 1]] ++ [.flashUnlock]
    flashCs := true, unlocked := true, wStatus := .passed, k := 0 }

@[simp] theorem writeFinish_closeBracket_flash (u : State) : (writeFinish (closeBracket u)).flash = u.flash := by
  rw [writeFinish_eq]
  rfl

@[simp] theorem writeFinish_closeBracket_wStatus (u : State) : (writeFinish (closeBracket u)).wStatus = u.wStatus := by
  rw [writeFinish_eq]
  rfl

@[simp] theorem writeFinish_closeBracket_oracle (u : State) : (writeFinish (closeBracket u)).oracle = u.oracle := by
  rw [writeFinish_eq]
  rfl

theorem writeFinish_closeBracket_evt (u : State) : ∃ p : Byte,
    (writeFinish (closeBracket u)).evt = u.evt ++ [.flashLock, .tx [p]] := by
  rw [writeFinish_eq]
  exact ⟨_, List.append_assoc ..⟩

/-- A verified MEMORY_WRITE to a valid address is its programming loop, which completes, and the end of the bracket. -/
theorem exec_memoryWrite_loop {f : Frame} {s q : State} (hs : s.flashCs = false)
    (hv : frameSum s s.cfg.cmdMemoryWrite f = f.crc) (hq : readWriteFields (f.bytes s.cfg.cmdMemoryWrite) s = q)
    (hc : addrValid s.cfg q.wAddr = .valid) :
    ∃ u : State, programLoop (f.bytes s.cfg.cmdMemoryWrite) (halfCount q.wLen) (loopStart f q s) = .next u ∧
      exec (.memoryWrite f) s = .next (writeFinish (closeBracket u)) := by
  obtain ⟨w, t, hexec, hw, hrun⟩ := execMemoryWrite_valid f s hs hv q hq hc
  obtain ⟨t', u, -, -, hloop, -⟩ := programBracket_spec (f.bytes s.cfg.cmdMemoryWrite) w (by rw [hw]; exact hs)
  subst hw
  exact ⟨u, hloop, by rw [← flashBracket_next hrun hloop]; exact hexec⟩

/-- The same, for a frame that holds its fields. -/
theorem exec_memoryWrite_loop_of_payload {f : Frame} {s : State} {a0 a1 a2 a3 len : Byte} {data : List Byte}
    (hp : f.payload = a0 :: a1 :: a2 :: a3 :: len :: data) (hs : s.flashCs = false)
    (hv : frameSum s s.cfg.cmdMemoryWrite f = f.crc) (hc : addrValid s.cfg (word32 a0 a1 a2 a3) = .valid) :
    ∃ u : State, programLoop (f.bytes s.cfg.cmdMemoryWrite) (halfCount len)
        (loopStart f { s with wAddr := word32 a0 a1 a2 a3, wLen := len } s) = .next u ∧
      exec (.memoryWrite f) s = .next (writeFinish (closeBracket u)) :=
  exec_memoryWrite_loop hs hv (readWriteFields_of_payload _ hp s) hc

/-- The data bytes follow the five field bytes (rule R52). -/
theorem bytes_getElem?_data (code : Byte) {f : Frame} {a0 a1 a2 a3 len b : Byte} {data : List Byte} {i : Nat}
    (hp : f.payload = a0 :: a1 :: a2 :: a3 :: len :: data) (h : data[i]? = some b) :
    (f.bytes code)[7 + i]? = some b := by
  rw [Nat.add_comm]
  exact bytes_getElem?_payload code (i := i + 5) (by simpa [hp] using h)

/-- A nominal MEMORY_WRITE's frame holds both bytes of each halfword (rules R34 and R113). -/
theorem exists_data_half (code : Byte) {f : Frame} {a0 a1 a2 a3 len : Byte} {data : List Byte}
    (hp : f.payload = a0 :: a1 :: a2 :: a3 :: len :: data) (hdata : data.length = len.toNat) {k : Nat}
    (hk : k < halfCount len) : ∃ d0 d1 : Byte, data[2 * k]? = some d0 ∧ data[2 * k + 1]? = some d1 ∧
      (f.bytes code)[7 + 2 * k]? = some d0 ∧ (f.bytes code)[8 + 2 * k]? = some d1 := by
  rw [halfCount_eq] at hk
  have h0 : data[2 * k]? = some _ := List.getElem?_eq_getElem (by omega)
  have h1 : data[2 * k + 1]? = some _ := List.getElem?_eq_getElem (by omega)
  exact ⟨_, _, h0, h1, bytes_getElem?_data code hp h0, Nat.add_right_comm 7 _ 1 ▸ bytes_getElem?_data code hp h1⟩

end Sys2Proof.Machine

namespace Sys2Proof.Proofs
open Sys2Proof.Machine

/-- Settles O51: only the loop changes the array, of the controller of assumption 6 only at its halfwords, and not at
all where there is none. -/
theorem memoryWriteChangesOnlyItsHalfwords : Obligations.MemoryWriteChangesOnlyItsHalfwords := by
  unfold Obligations.MemoryWriteChangesOnlyItsHalfwords
  intro f s t x h hcontroller hx
  by_cases hv : frameSum s s.cfg.cmdMemoryWrite f = f.crc
  case neg =>
    obtain rfl := Host.Outcome.next.inj ((exec_of_frameSum_ne (.memoryWrite f) nofun hv).symm.trans h)
    rfl
  cases hc : addrValid s.cfg (readWriteFields (f.bytes s.cfg.cmdMemoryWrite) s).wAddr with
  | invalid => rw [(noFlashRequest_of_exec_memoryWrite hc h).flash]
  | valid =>
    cases hs : s.flashCs with
    | true => cases (execMemoryWrite_held hs hv hc).symm.trans h
    | false =>
      obtain ⟨u, hloop, hexec⟩ := exec_memoryWrite_loop hs hv rfl hc
      obtain rfl := Host.Outcome.next.inj (hexec.symm.trans h)
      rw [writeFinish_closeBracket_flash]
      rcases hcontroller with hstores | hshort
      · have hflash := programLoop_flash _ _ _ u rfl ((Nat.zero_add _).trans_le (halfCount_le _)) hloop
        exact hflash.2 x hstores fun j hj => by simpa [loopStart] using hx j hj
      · have hnone : halfCount (readWriteFields (f.bytes s.cfg.cmdMemoryWrite) s).wLen = 0 := by
          rw [halfCount_eq]
          exact Nat.div_eq_of_lt hshort
        rw [hnone] at hloop
        cases hloop
        rfl

/-- Settles O52: data byte 2k is the low byte of halfword k and data byte 2k + 1 its high byte. -/
theorem passedMemoryWriteStoresTheData : Obligations.PassedMemoryWriteStoresTheData := by
  unfold Obligations.PassedMemoryWriteStoresTheData
  intro f s a0 a1 a2 a3 len data hstores hp hdata hs hv hc
  obtain ⟨u, hloop, hexec⟩ := exec_memoryWrite_loop_of_payload hp hs hv hc
  refine ⟨_, hexec, fun hpassed j hj => ?_⟩
  rw [writeFinish_closeBracket_wStatus] at hpassed
  rw [writeFinish_closeBracket_flash]
  have hstore := (programLoop_store _ _ _ u rfl ((Nat.zero_add _).trans_le (halfCount_le _)) (by exact hstores) hloop
    hpassed).2
  have hhalf (k : Nat) (hk : k < halfCount len) :
      u.flash.read (((word32 a0 a1 a2 a3).toNat + 2 * k) % 2 ^ 32) = data[2 * k]? ∧
        u.flash.read (((word32 a0 a1 a2 a3).toNat + 2 * k + 1) % 2 ^ 32) = data[2 * k + 1]? := by
    obtain ⟨d0, d1, h0, h1, hb0, hb1⟩ := exists_data_half s.cfg.cmdMemoryWrite hp hdata hk
    have hindex : (0 : Byte).toNat + k = k := Nat.zero_add k
    have hread := hstore k hk d0 d1
    simp only [loopStart, hindex, halfAddr_toNat, halfAddr_succ_toNat] at hread
    rw [h0, h1]
    exact hread hb0 hb1
  rcases Nat.even_or_odd' j with ⟨k, rfl | rfl⟩
  · exact (hhalf k (by rw [halfCount_eq]; omega)).1
  · exact (hhalf k (by rw [halfCount_eq]; omega)).2

/-- Settles O53. -/
theorem anyProgramAnswersArePossible : Obligations.AnyProgramAnswersArePossible := by
  unfold Obligations.AnyProgramAnswersArePossible
  intro f s a0 a1 a2 a3 len data answers ws hp hdata hs hv hc hstop hlen ho
  obtain ⟨u, hloop, hexec⟩ := exec_memoryWrite_loop_of_payload hp hs hv hc
  have hbytes (k : Nat) (hk : k < halfCount len) : ∃ b0 b1 : Byte,
      (f.bytes s.cfg.cmdMemoryWrite)[7 + 2 * (0 + k)]? = some b0 ∧
        (f.bytes s.cfg.cmdMemoryWrite)[8 + 2 * (0 + k)]? = some b1 := by
    obtain ⟨d0, d1, -, -, hb0, hb1⟩ := exists_data_half s.cfg.cmdMemoryWrite hp hdata hk
    rw [Nat.zero_add]
    exact ⟨d0, d1, hb0, hb1⟩
  obtain ⟨u', reqs, hloop', hevt, horacle, hreqs, hokay, hstatus⟩ := programLoop_answers
    (f.bytes s.cfg.cmdMemoryWrite) ws (halfCount len)
    (loopStart f { s with wAddr := word32 a0 a1 a2 a3, wLen := len } s) answers rfl
    ((Nat.zero_add _).trans_le (halfCount_le len)) hstop (by rw [hlen, halfCount_eq]) ho hbytes
  obtain rfl : u = u' := Host.Outcome.next.inj (hloop.symm.trans hloop')
  obtain ⟨p, hlast⟩ := writeFinish_closeBracket_evt u
  refine ⟨_, [.diag s.cfg.cmdMemoryWrite, .tx [s.cfg.ackMarker, 1], .flashUnlock] ++ reqs ++ [.flashLock, .tx [p]],
    hexec, ?_, ?_, ?_, ?_⟩
  · rw [hlast, hevt]
    simp [loopStart]
  · rw [writeFinish_closeBracket_oracle, horacle]
  · rw [← hokay]
    simp [Event.isArrayRequest, List.filter_eq_self.2 hreqs]
  · rw [writeFinish_closeBracket_wStatus, hstatus]
    rfl

end Sys2Proof.Proofs
end

section
/-! PROOFS. Single operations: the reset (rules R28, R141 and R142), the flash port (rule R101), the taking of an error
(rule R121), and the two commands that are not verified (rules R97 and R99). -/

namespace Sys2Proof.Machine

theorem drawBit_of_oracle {s : State} {w : Word} {ws : List Word} (h : s.oracle = w :: ws) :
    drawBit s = (w.getLsbD 0, { s with oracle := ws }) := by
  simp only [drawBit, draw, h]

theorem drawBit_of_no_oracle {s : State} (h : s.oracle = []) :
    drawBit s = ((Config.freeWord s.drawCount).getLsbD 0, { s with drawCount := s.drawCount + 1 }) := by
  simp only [drawBit, draw, h]

/-- The flash port with the critical section free (rule R101). -/
theorem flashPort_free {s : State} (h : s.flashCs = false) (r : EraseRequest) (e : Word) (a : Word) (v : Half)
    (ok : Bool) :
    flashUnlock s = .next { s with flashCs := true, unlocked := true, evt := s.evt ++ [.flashUnlock] } ∧
    flashLock s = .fault .flashBracket ∧ flashErase r e s = .fault .flashBracket ∧
    flashProgram a v ok s = .fault .flashBracket := by
  simp [flashUnlock, flashLock, flashErase, flashProgram, emit, h]

/-- The flash port with the critical section held (rule R101). -/
theorem flashPort_held {s : State} (h : s.flashCs = true) (r : EraseRequest) (e : Word) (a : Word) (v : Half)
    (ok : Bool) :
    flashUnlock s = .fault .flashBracket ∧
    flashLock s = .next { s with flashCs := false, unlocked := false, evt := s.evt ++ [.flashLock] } ∧
    flashErase r e s = .next { s with
      evt := s.evt ++ [.erase r e], history := .erase r e :: s.history, flash := [] } ∧
    flashProgram a v ok s = .next { s with
      evt := s.evt ++ [.program a v ok], history := .program a v ok :: s.history
      flash := arrayAfterProgram s.controller a v ok s.flash } := by
  simp [flashUnlock, flashLock, flashErase, flashProgram, emit, h]

end Sys2Proof.Machine

namespace Sys2Proof.Proofs
open Sys2Proof.Machine

/-- Settles O1. -/
theorem resetLeavesSpecifiedValues : Obligations.ResetLeavesSpecifiedValues := by
  unfold Obligations.ResetLeavesSpecifiedValues
  exact ⟨fun c => ⟨rfl, rfl, rfl, rfl, rfl⟩, fun s => ⟨rfl, rfl, rfl, rfl, resetBlock_cfg s⟩⟩

/-- Settles O2: between two cycles nothing is drawn; inside one the lock is the next draw. -/
theorem resetInsideACycleLosesTheFrame : Obligations.ResetInsideACycleLosesTheFrame := by
  unfold Obligations.ResetInsideACycleLosesTheFrame
  intro s
  refine ⟨resetBlock_between, fun hp w ws => ?_, fun hp ho => ?_⟩
  · obtain ⟨_, _, hdraw, hreset⟩ := resetBlock_inside (s := { s with oracle := w :: ws }) hp
    rw [drawBit_of_oracle rfl] at hdraw
    cases hdraw
    exact hreset
  · obtain ⟨_, _, hdraw, hreset⟩ := resetBlock_inside hp
    rw [drawBit_of_no_oracle ho] at hdraw
    cases hdraw
    exact hreset

/-- Settles O38. -/
theorem goToAddressDoesNothing : Obligations.GoToAddressDoesNothing := by
  unfold Obligations.GoToAddressDoesNothing
  exact exec_goToAddress

/-- Settles O39: the draw alone decides whether there is a Diag event. -/
theorem unknownCommandIsSilent : Obligations.UnknownCommandIsSilent := by
  unfold Obligations.UnknownCommandIsSilent
  intro code s
  refine ⟨⟨_, execUnknown_eq code s, ?_, rfl⟩, fun w ws => ⟨fun hw => ?_, fun hw => ?_⟩⟩
  · cases (drawBit s).1 with
    | false => exact .inl rfl
    | true => exact .inr rfl
  · rw [execUnknown_eq, drawBit_of_oracle rfl, hw]
    rfl
  · rw [execUnknown_eq, drawBit_of_oracle rfl, hw]
    rfl

/-- Settles O42. -/
theorem flashRequestsKeepTheirPreconditions : Obligations.FlashRequestsKeepTheirPreconditions := by
  unfold Obligations.FlashRequestsKeepTheirPreconditions
  intro s r e a h ok
  refine ⟨fun hs => flashPort_free hs r e a h ok, fun hs => ?_⟩
  obtain ⟨hunlock, hlock, herase, hprogram⟩ := flashPort_held hs r e a h ok
  exact ⟨hunlock, hlock, ⟨_, herase, rfl⟩, ⟨_, hprogram, rfl⟩⟩

/-- Settles O54. -/
theorem abortReportsAndReturnsToWaitLen : Obligations.AbortReportsAndReturnsToWaitLen := by
  unfold Obligations.AbortReportsAndReturnsToWaitLen
  intro e s
  cases e with
  | transportFailure =>
    rw [abort_transportFailure]
    cases s.cfg.nackOnRxError with
    | true => rfl
    | false => exact congrArg (fun evt => { s with phase := .waitLen, evt := evt }) (List.append_nil s.evt).symm
  | malformedFrame | unknownCommand =>
    exact congrArg (fun evt => { s with phase := .waitLen, evt := evt }) (List.append_nil s.evt).symm
  | integrityFailure | pageNumberInvalid | eraseHardwareFailure | addressInvalid | programHardwareFailure => rfl

end Sys2Proof.Proofs
end
